-- ==== Sys2Proof/Word.lean ====
section
/-! DEFINITION. The machine's one word: a byte of 8 bits (spec/00_scope.md R8, BYTE_WIDTH and
REG_WIDTH). A memory cell, an opcode, an operand and a general register are all bytes, read as
unsigned (R10). -/

namespace Sys2Proof

/-- A `u8` of the spec: 8 bits, unsigned (spec/00_scope.md R8, R10). -/
abbrev Byte := BitVec 8

end Sys2Proof
end

