-- ==== Sys2Proof/Config.lean ====
section
/-! DEFINITION. The implementation parameters of spec/00_scope.md R8, each a named constant with the
value the spec gives. The spec leaves no value open (spec/93_implementation_defined.md), so there is
no free value here. -/

namespace Sys2Proof.Config

/-- MEM_SIZE: the number of memory cells, addresses 0 to 255 (R8, R21). -/
abbrev memSize : Nat := 256

/-- NUM_REGS: the number of general registers, indices 0 to 7 (R8, R22). -/
abbrev numRegs : Nat := 8

/-- SP_INIT: the value of `sp` at reset (R8, R26, R34; the spec's own decision D2). DESIGN CHOICE, log
entry 1: the constant, not a parameter. -/
def spInit : Int := 244

/-- What every cell holds at reset, hence what an unlisted cell reads as: memory is
"zero-initialized at construction" (R21, R34; log entry 2). -/
def resetByte : Byte := 0

/-- The bound on the steps of a run: "Every run reaches HALTED or FAULTED within at most 128 steps"
(R88, which the spec derives; log entry 7). -/
def maxSteps : Nat := 128

end Sys2Proof.Config
end

