-- ==== Sys2Proof/Syntax.lean ====
section
/-! DEFINITION. The instructions: one constructor for each of the six rows of spec/opcode_table.json
(spec/00_scope.md R3, spec/30_encoding.md R64). -/

namespace Sys2Proof

/-- A decoded instruction. Every operand is the whole operand byte: a register index is not masked to
3 bits (spec/30_encoding.md R62), so an index of 8 to 255 is a possible operand, and the
instruction that carries it raises InvalidRegister when it runs. -/
inductive Instr where
  /-- HALT (spec/41_halt.md R100). -/
  | halt
  /-- PRINT rN (spec/42_register.md R111). -/
  | print (r : Byte)
  /-- LOAD-IMMEDIATE rN, imm (spec/42_register.md R110). -/
  | loadImmediate (r imm : Byte)
  /-- MULTIPLY rA, rB (spec/43_alu.md R135). -/
  | multiply (a b : Byte)
  /-- PUSH rN (spec/44_stack.md R151). -/
  | push (r : Byte)
  /-- POP rN (spec/44_stack.md R152). -/
  | pop (r : Byte)
  deriving DecidableEq, Repr

end Sys2Proof
end

