-- ==== Sys2Proof/Machine/State.lean ====
section
/-! DEFINITION. The state of the block, plain data, exactly the tuple of spec/10_state.md R20, with
what a step can raise and how a step can end. -/

namespace Sys2Proof.Machine

/-- The memory: the cells that differ from the reset byte, by rising address, each address at most
once (`Memory.wf` in Machine/Ops.lean; log entry 2). An unlisted cell reads as `Config.resetByte`
(spec/10_state.md R21). -/
abbrev Memory := List Host.Cell

/-- The index of a general register, r0 to r7 (spec/10_state.md R22). -/
abbrev RegIndex := Fin Config.numRegs

/-- The run state (spec/10_state.md R27). -/
inductive RunState where
  | running
  | halted
  | faulted
  deriving DecidableEq, Repr

/-- The cause field of the fault record (spec/10_state.md R28, spec/60_exceptions.md R171). -/
inductive FaultCause where
  | none
  | unrecognizedOpcode
  | outOfBounds
  | invalidRegister
  | unsupportedOperation
  deriving DecidableEq, Repr

/-- What a rule can raise, `raise E(info)` (spec/60_exceptions.md R170, R171). Taking it is
`State.takeFault`, and the machine then stands in a next state. -/
inductive Trap where
  /-- Dispatch, for a byte that is no opcode (spec/40_loop.md R85). -/
  | unrecognizedOpcode (op : Byte)
  /-- The memory interface, for an address outside 0 to 255, and POP, for `sp + 1 = 256`
  (spec/20_memory.md R40, R41; spec/44_stack.md R152). -/
  | outOfBounds (addr : Int)
  /-- CheckReg, for a register operand of 8 to 255 (spec/30_encoding.md R62). -/
  | invalidRegister (i : Byte)
  /-- The ALU, for a tag outside {ADD, MUL}. The tag set is closed, so nothing raises it; the cause
  keeps its code (spec/43_alu.md R133; log entry 9). -/
  | unsupportedOperation (tag : Nat)
  deriving DecidableEq, Repr

/-- The state of the block (spec/10_state.md R20: "Nothing else is state"). -/
structure State where
  /-- The 256 memory cells (R21). -/
  mem : Memory
  /-- The register file, r0 to r7 (R22). -/
  x : Vector Byte Config.numRegs
  /-- The program counter, a natural number that does not wrap (R25). -/
  pc : Nat
  /-- The stack pointer, an integer the rules keep in 0 to 255 (R26, R153). -/
  sp : Int
  /-- RUNNING, HALTED or FAULTED (R27). -/
  runState : RunState
  /-- The fault record's cause (R28). -/
  faultCause : FaultCause
  /-- The fault record's program counter (R28). -/
  faultPc : Nat
  /-- The fault record's offending value (R28). -/
  faultInfo : Int
  /-- The output trace, oldest value first (R30). -/
  out : List Byte
  deriving DecidableEq, Repr

/-- Why `step` has no next state: the run is over. The four faults of the spec are no constructors
here: taking one is a next state (spec/60_exceptions.md R170). DESIGN CHOICE, log entry 3. -/
inductive Fault where
  /-- Raised by `step` when `runState` is HALTED: "From HALTED or FAULTED there is no step"
  (spec/40_loop.md R80, spec/41_halt.md R101). Safe: the machine has no next state there either. -/
  | noStepFromHalted
  /-- Raised by `step` when `runState` is FAULTED (spec/40_loop.md R80, spec/60_exceptions.md R177).
  Safe: the machine has no next state there either. -/
  | noStepFromFaulted
  deriving DecidableEq, Repr

/-- Why an instruction has no meaning in the model. -/
inductive Refusal where
  /-- Raised by an arm of `exec` for an instruction not modelled yet; no arm raises it now. Safe. -/
  | notModelled (mnemonic : String)
  deriving DecidableEq, Repr

/-- The machine right after reset (spec/10_state.md R34, spec/70_reset_and_hazards.md R200). Every
value is the spec's. -/
def State.reset : State where
  mem := []
  x := Vector.replicate Config.numRegs 0
  pc := 0
  sp := Config.spInit
  runState := .running
  faultCause := .none
  faultPc := 0
  faultInfo := 0
  out := []

end Sys2Proof.Machine
end

