-- ==== Sys2Proof/Machine/Ops.lean ====
section
/-! DEFINITION. The operations every instruction is written from, the pseudocode primitives of
spec/00_scope.md R11: memory, registers, the program counter, the output, and taking a fault. -/

namespace Sys2Proof.Machine

/-! ## Memory -/

/-- The byte in the cell at address `a`; an unlisted cell holds the reset byte (spec/20_memory.md
R50: "If the loader placed nothing at `a`, it returns 0"). -/
def Memory.byteAt : Memory → Nat → Byte
  | [], _ => Config.resetByte
  | c :: m, a => if c.1 = a then c.2 else Memory.byteAt m a

/-- The memory with the cell at `a` no longer listed. -/
def Memory.erase (m : Memory) (a : Nat) : Memory := m.filter fun c => c.1 != a

/-- The memory with `(a, v)` listed at its place by rising address. -/
def Memory.insert (a : Nat) (v : Byte) : Memory → Memory
  | [] => [(a, v)]
  | c :: m => if a < c.1 then (a, v) :: c :: m else c :: Memory.insert a v m

/-- The memory with the cell at `a` holding `v`, replaced "unconditionally" (spec/20_memory.md R41).
The canonical form is kept: writing the reset byte leaves the cell unlisted. -/
def Memory.setByte (m : Memory) (a : Nat) (v : Byte) : Memory :=
  if v = Config.resetByte then m.erase a else Memory.insert a v (m.erase a)

/-- The canonical form: addresses strictly rising, every address one of the 256 that exist, and no
entry equal to what an unlisted cell reads as. -/
abbrev Memory.wf (m : Memory) : Prop :=
  m.Pairwise (fun c d => c.1 < d.1) ∧ ∀ c ∈ m, c.1 < Config.memSize ∧ c.2 ≠ Config.resetByte

/-- The bounds check of the memory interface, "address ∉ [0, capacity)" fails (spec/20_memory.md
R40, R41). An address is an integer of any size and is never wrapped or clamped. -/
def inMemory : Int → Bool
  | .ofNat n => n < Config.memSize
  | .negSucc _ => false

/-- `MemRead(addr, 1)` (spec/20_memory.md R40). -/
def Memory.read (m : Memory) (addr : Int) : Except Trap Byte :=
  if inMemory addr then .ok (m.byteAt addr.toNat) else .error (.outOfBounds addr)

/-- `MemWrite(addr, 1, v)` (spec/20_memory.md R41). -/
def Memory.write (m : Memory) (addr : Int) (v : Byte) : Except Trap Memory :=
  if inMemory addr then .ok (m.setByte addr.toNat v) else .error (.outOfBounds addr)

/-! ## Registers, program counter, output -/

/-- `x[i]` (spec/00_scope.md R11). No register is hard-wired (spec/10_state.md R23). -/
def State.readReg (s : State) (i : RegIndex) : Byte := s.x[i]

/-- `x[i] <- v` (spec/00_scope.md R11). -/
def State.writeReg (s : State) (i : RegIndex) (v : Byte) : State := { s with x := s.x.set i v }

/-- `pc <- pc + width`, exact, with no wrap (spec/40_loop.md R84, spec/43_alu.md R136). -/
def State.advance (s : State) (width : Nat) : State := { s with pc := s.pc + width }

/-- `emit Print(v)`: the value goes to the end of the output trace (spec/42_register.md R112). -/
def State.emit (s : State) (v : Byte) : State := { s with out := s.out ++ [v] }

/-! ## Taking a fault, and the one way back -/

/-- The cause that is recorded (spec/60_exceptions.md R171). -/
def Trap.cause : Trap → FaultCause
  | .unrecognizedOpcode _ => .unrecognizedOpcode
  | .outOfBounds _ => .outOfBounds
  | .invalidRegister _ => .invalidRegister
  | .unsupportedOperation _ => .unsupportedOperation

/-- The offending value that is recorded (spec/60_exceptions.md R171, column `fault_info`). -/
def Trap.info : Trap → Int
  | .unrecognizedOpcode op => op.toNat
  | .outOfBounds addr => addr
  | .invalidRegister i => i.toNat
  | .unsupportedOperation tag => tag

/-- `raise E(info)` in the step that starts in `s` (spec/60_exceptions.md R170): the fault record and
`run_state` are written, and everything else keeps the value it had at the start of the step. It
vectors nowhere (R176), so `pc` stays at the faulting instruction. -/
def State.takeFault (s : State) (e : Trap) : State :=
  { s with runState := .faulted, faultCause := e.cause, faultPc := s.pc, faultInfo := e.info }

/-- The way back from a fault or a halt. There is no return instruction (spec/60_exceptions.md R177):
the host's reset transaction, from whatever state, gives the reset state
(spec/70_reset_and_hazards.md R200). When the host asks for it (not while RUNNING, R204) is its own
part (log entry 6). -/
def State.hostReset (_ : State) : State := State.reset

/-- How an instruction's rule ends: its next state, or the fault it raised, taken in the state `s` in
which the step started, so that every write of a faulting instruction is discarded
(spec/00_scope.md R12). -/
def conclude (s : State) : Except Trap State → Host.Outcome State Fault Refusal
  | .ok t => .next t
  | .error e => .next (s.takeFault e)

end Sys2Proof.Machine
end

