-- ==== Sys2Proof/Machine/Operands.lean ====
section
/-! DEFINITION. The operand forms: a register index, which is checked (spec/30_encoding.md R62), and
an immediate byte, which is taken as it stands (R63). -/

namespace Sys2Proof.Machine

/-- `CheckReg(i)`: the whole operand byte, unmasked; 0 to 7 selects a register, and 8 to 255 raises
InvalidRegister with the index (spec/30_encoding.md R62, spec/60_exceptions.md R173). -/
def checkReg (r : Byte) : Except Trap RegIndex :=
  if h : r.toNat < Config.numRegs then .ok ⟨r.toNat, h⟩ else .error (.invalidRegister r)

/-- The immediate operand, `zext_8(imm)`: the byte itself, with no extension, scaling or shift
(spec/30_encoding.md R63). -/
def immediate (imm : Byte) : Byte := imm

end Sys2Proof.Machine
end

