-- ==== Sys2Proof/Machine/Alu.lean ====
section
/-! DEFINITION. The ALU and MULTIPLY (spec/43_alu.md). -/

namespace Sys2Proof.Machine

/-- The ALU's operation tags, a closed set (spec/43_alu.md R130, D18). -/
inductive AluOp where
  /-- Defined but reached by no opcode (R131). -/
  | add
  /-- Used by MULTIPLY (R132). -/
  | mul
  deriving DecidableEq, Repr

/-- `ALU(tag, p, q)`: computed exactly over the integers, then reduced modulo 256 (spec/43_alu.md
R130 to R132). The result is the only output: no flag (R134). -/
def alu (tag : AluOp) (p q : Byte) : Byte :=
  match tag with
  | .add => BitVec.ofNat 8 (p.toNat + q.toNat)
  | .mul => BitVec.ofNat 8 (p.toNat * q.toNat)

/-- MULTIPLY: `a` is checked before `b`, both registers are read before the write,
`x[a] <- ALU(MUL, x[a], x[b])`, `pc <- pc + 3` (spec/43_alu.md R135). -/
def execMultiply (a b : Byte) (s : State) : Host.Outcome State Fault Refusal :=
  conclude s do
    let i ← checkReg a
    let j ← checkReg b
    return (s.writeReg i (alu .mul (s.readReg i) (s.readReg j))).advance 3

end Sys2Proof.Machine
end

