-- ==== Sys2Proof/Machine/Halt.lean ====
section
/-! DEFINITION. HALT (spec/41_halt.md). -/

namespace Sys2Proof.Machine

/-- HALT: `run_state <- HALTED`; `pc` and everything else unchanged (spec/41_halt.md R100). -/
def execHalt (s : State) : Host.Outcome State Fault Refusal :=
  conclude s (.ok { s with runState := .halted })

end Sys2Proof.Machine
end

