-- ==== Sys2Proof/Machine/Register.lean ====
section
/-! DEFINITION. The register instructions LOAD-IMMEDIATE and PRINT (spec/42_register.md). -/

namespace Sys2Proof.Machine

/-- LOAD-IMMEDIATE: `x[r] <- imm`, `pc <- pc + 3` (spec/42_register.md R110). -/
def execLoadImmediate (r imm : Byte) (s : State) : Host.Outcome State Fault Refusal :=
  conclude s do
    let i ← checkReg r
    return (s.writeReg i (immediate imm)).advance 3

/-- PRINT: `emit Print(x[r])`, `pc <- pc + 2` (spec/42_register.md R111, R112). -/
def execPrint (r : Byte) (s : State) : Host.Outcome State Fault Refusal :=
  conclude s do
    let i ← checkReg r
    return (s.emit (s.readReg i)).advance 2

end Sys2Proof.Machine
end

