-- ==== Sys2Proof/Machine/Stack.lean ====
section
/-! DEFINITION. The stack instructions PUSH and POP (spec/44_stack.md). The stack is full-descending,
one byte a slot, in the one address space (R150). -/

namespace Sys2Proof.Machine

/-- The address a PUSH stores to, and the `sp` it leaves: `t <- sp - 1`, exact (spec/44_stack.md
R151; spec/43_alu.md R136). -/
def pushAddr (s : State) : Int := s.sp - 1

/-- The address a POP reads (spec/44_stack.md R152). -/
def popAddr (s : State) : Int := s.sp

/-- The `sp` a POP leaves: `n <- sp + 1`, raising OutOfBounds(n) when it passes 255
(spec/44_stack.md R152, D8). -/
def popSp (s : State) : Except Trap Int :=
  if s.sp + 1 > 255 then .error (.outOfBounds (s.sp + 1)) else .ok (s.sp + 1)

/-- PUSH: the register check, then `MemWrite(sp - 1, 1, x[r])`, then `sp` and `pc`
(spec/44_stack.md R151). -/
def execPush (r : Byte) (s : State) : Host.Outcome State Fault Refusal :=
  conclude s do
    let i ← checkReg r
    let m ← s.mem.write (pushAddr s) (s.readReg i)
    return { s with mem := m, sp := pushAddr s }.advance 2

/-- POP: the register check, the read of `mem[sp]`, the check of `sp + 1`, then `x[r]`, `sp` and `pc`
(spec/44_stack.md R152). The cell keeps its value. With `sp` outside 0 to 255, which no run reaches
(R153), the read raises OutOfBounds(sp). DEDUCED, log entry 4. -/
def execPop (r : Byte) (s : State) : Host.Outcome State Fault Refusal :=
  conclude s do
    let i ← checkReg r
    let v ← s.mem.read (popAddr s)
    let n ← popSp s
    return { s.writeReg i v with sp := n }.advance 2

end Sys2Proof.Machine
end

