-- ==== Sys2Proof/Machine/Dispatch.lean ====
section
/-! DEFINITION. One arm per instruction, in the order of spec/opcode_table.json (spec/40_loop.md R83). -/

namespace Sys2Proof.Machine

def exec (i : Instr) (s : State) : Host.Outcome State Fault Refusal :=
  match i with
  | .halt => Sys2Proof.Machine.execHalt s
  | .print r => Sys2Proof.Machine.execPrint r s
  | .loadImmediate r imm => Sys2Proof.Machine.execLoadImmediate r imm s
  | .multiply a b => Sys2Proof.Machine.execMultiply a b s
  | .push r => Sys2Proof.Machine.execPush r s
  | .pop r => Sys2Proof.Machine.execPop r s

end Sys2Proof.Machine
end

