-- ==== Sys2Proof/Decode.lean ====
section
/-! DEFINITION. Decoding and encoding (spec/30_encoding.md; the dispatch table of spec/40_loop.md R83).
The decoder is total on any three bytes and names the byte it does not recognise; the encoder is
written from the same table (R64) and comes after it. -/

namespace Sys2Proof

/-- What a decode answers: "a tagged variant over {Halt, LoadImmediate, Print, Multiply, Push, Pop,
Unknown(byte)}" (spec/40_loop.md R83). -/
inductive Decoded where
  /-- One of the six instructions. -/
  | known (i : Instr)
  /-- An unrecognised opcode byte, which the arm carries (R83, R85). -/
  | unknown (op : Byte)
  deriving DecidableEq, Repr

/-- The decode of one fetch window `(op, b1, b2)`: the whole opcode byte is compared with the six
values of R64, and nothing else takes part (R65, D23). Operand bytes the instruction does not use
are ignored (R67). -/
def decode (op b1 b2 : Byte) : Decoded :=
  if op = 1 then .known .halt
  else if op = 71 then .known (.print b1)
  else if op = 130 then .known (.loadImmediate b1 b2)
  else if op = 162 then .known (.multiply b1 b2)
  else if op = 69 then .known (.push b1)
  else if op = 70 then .known (.pop b1)
  else .unknown op

/-- The number of bytes an instruction occupies, "a static per-opcode byte width" (R60, R64). -/
def Instr.width : Instr → Nat
  | .halt => 1
  | .print _ => 2
  | .loadImmediate _ _ => 3
  | .multiply _ _ => 3
  | .push _ => 2
  | .pop _ => 2

/-- The bytes of an instruction in address order, opcode first (R44, R61, R64). -/
def encode : Instr → List Byte
  | .halt => [1]
  | .print r => [71, r]
  | .loadImmediate r imm => [130, r, imm]
  | .multiply a b => [162, a, b]
  | .push r => [69, r]
  | .pop r => [70, r]

/-- The instruction a decoder answered, if it recognised one. -/
def Decoded.instr? : Decoded → Option Instr
  | .known i => some i
  | .unknown _ => none

/-- Reads one instruction off the front of a byte sequence and gives the rest, which starts `width`
bytes on: "the next instruction starts at `pc + width`" (R68). The bytes of the fetch window that
the sequence lacks are taken as 0; an instruction whose own bytes are cut off is not read. DESIGN
CHOICE, log entry 8. The machine does not fetch this way (R82): this is the layout of a program as
bytes. -/
def decodeFront : List Byte → Option (Instr × List Byte)
  | [] => none
  | op :: rest =>
    match decode op (rest.getD 0 0) (rest.getD 1 0) with
    | .unknown _ => none
    | .known i => if rest.length + 1 < i.width then none else some (i, rest.drop (i.width - 1))

/-- Reads `n` instructions that "follow one another back to back with no padding" (R68), and gives
them with the bytes left over. -/
def decodeProgram : Nat → List Byte → Option (List Instr × List Byte)
  | 0, bs => some ([], bs)
  | n + 1, bs =>
    match decodeFront bs with
    | none => none
    | some (i, rest) =>
      match decodeProgram n rest with
      | none => none
      | some (is, left) => some (i :: is, left)

/-- Byte `k` of a table word: bits `8k+7` down to `8k`, the first byte of the instruction in the
lowest bits, as spec/opcode_table.json numbers them. Bits at `nbits` and above are 0. -/
def tableByte (nbits w k : Nat) : Byte := BitVec.ofNat 8 (w % 2 ^ nbits / 2 ^ (8 * k))

/-- The instruction the decoder reads from a table word: its three window bytes, decoded. -/
def decodeTableWord (nbits w : Nat) : Option Instr :=
  (decode (tableByte nbits w 0) (tableByte nbits w 1) (tableByte nbits w 2)).instr?

/-- The table word of a byte sequence: the first byte in the lowest bits. -/
def packBytes : List Byte → Nat
  | [] => 0
  | b :: bs => b.toNat + 256 * packBytes bs

end Sys2Proof
end

