-- ==== Sys2Proof/Machine/Fetch.lean ====
section
/-! DEFINITION. The fetch of one step (spec/40_loop.md R81, R82) and the placing of instruction bytes
where it reads them. -/

namespace Sys2Proof.Machine

/-- The fetch: three bounds-checked reads in order, whatever the opcode, all before dispatch
(spec/40_loop.md R81, R82; spec/20_memory.md R51). -/
def fetch (s : State) : Except Trap (Byte × Byte × Byte) := do
  let op ← s.mem.read s.pc
  let b1 ← s.mem.read (s.pc + 1)
  let b2 ← s.mem.read (s.pc + 2)
  return (op, b1, b2)

/-- Dispatch of a decoded window: the instruction, or UnrecognizedOpcode with the byte
(spec/40_loop.md R83, R85). -/
def recognise : Decoded → Except Trap Instr
  | .known i => .ok i
  | .unknown op => .error (.unrecognizedOpcode op)

/-- Fetch, then decode, so that a fetch fault comes before UnrecognizedOpcode (spec/60_exceptions.md
R174). -/
def fetchInstr (s : State) : Except Trap Instr := do
  let (op, b1, b2) ← fetch s
  recognise (decode op b1 b2)

/-- The bytes placed at consecutive addresses from `a` up; a byte whose address does not exist is
dropped. -/
def placeBytes : Nat → List Byte → Memory → Memory
  | _, [], m => m
  | a, b :: bs, m => placeBytes (a + 1) bs (if a < Config.memSize then m.setByte a b else m)

end Sys2Proof.Machine
end

