-- ==== Sys2Proof/Machine/Loop.lean ====
section
/-! DEFINITION. The fetch-decode-execute loop (spec/40_loop.md R80, R86, R89) and the launch of a run
(spec/70_reset_and_hazards.md R201). -/

namespace Sys2Proof.Machine

/-- What follows the fetch: the instruction's rule, or the fault of the fetch or the decode, which is
taken like any other (spec/40_loop.md R83, R85). -/
def runFetched (s : State) : Except Trap Instr → Host.Outcome State Fault Refusal
  | .ok i => exec i s
  | .error e => conclude s (.error e)

/-- One iteration while RUNNING: fetch, decode, then the instruction's rule (spec/40_loop.md R86). -/
def iterate (s : State) : Host.Outcome State Fault Refusal := runFetched s (fetchInstr s)

/-- One step: an iteration if the block is RUNNING; "From HALTED or FAULTED there is no step"
(spec/40_loop.md R80), which the host's interface shows as a fault. DESIGN CHOICE, log entry 3. -/
def stepRunning (s : State) : Host.Outcome State Fault Refusal :=
  match s.runState with
  | .running => iterate s
  | .halted => .fault .noStepFromHalted
  | .faulted => .fault .noStepFromFaulted

/-- `while run_state = RUNNING: Step()` (spec/40_loop.md R89), for at most `n` steps. -/
def runFor : Nat → State → State
  | 0, s => s
  | n + 1, s =>
    match stepRunning s with
    | .next t => runFor n t
    | .fault _ => s
    | .refused _ => s

/-- `run()`: to the end of the run, which comes within 128 steps (spec/40_loop.md R88, R89). DEDUCED, log
entry 7. -/
def run (s : State) : State := runFor Config.maxSteps s

/-- The launch state: reset, then the program written through the load port at addresses 0 up
(spec/70_reset_and_hazards.md R201, R203). Input that is no sequence of at most 256 bytes has no
launch state and is refused at the loader (R203, D17). -/
def launch (p : List Nat) : Option State :=
  if p.length ≤ Config.memSize ∧ ∀ v ∈ p, v < 256 then
    some { State.reset with mem := placeBytes 0 (p.map (BitVec.ofNat 8)) State.reset.mem }
  else none

end Sys2Proof.Machine
end

