-- ==== Sys2Proof/Machine/Step.lean ====
section
/-! DEFINITION. The step the host calls, and the placing of an instruction where it fetches. Both only
call the definitions of Machine/Loop.lean and Machine/Fetch.lean. -/

namespace Sys2Proof.Machine

/-- One step of the machine (spec/40_loop.md R80). -/
def step (s : State) : Host.Outcome State Fault Refusal := stepRunning s

/-- `s` with the instruction of a table word stored where the next step fetches: its bytes at `pc`,
`pc+1` and `pc+2`, the bits above `nbits` being 0. The next step of a RUNNING state with `pc` at
most 253 runs it; at 254 and above no instruction can be fetched (spec/40_loop.md R82). DESIGN CHOICE, log
entry 5. -/
def State.withFetchWord (s : State) (nbits w : Nat) : State :=
  { s with mem := placeBytes s.pc [tableByte nbits w 0, tableByte nbits w 1, tableByte nbits w 2] s.mem }

end Sys2Proof.Machine
end

