-- ==== Sys2Proof/Machine/Flags.lean ====
section
/-! DEFINITION. The block has no flags and no condition codes (spec/10_state.md R29), and the ALU
gives none (spec/43_alu.md R134), so there is no flag computation. Its only status is the run state
and the fault record; this file gives their codes at the status port (R27, R28;
spec/60_exceptions.md R183). -/

namespace Sys2Proof.Machine

/-- RUNNING = 0, HALTED = 1, FAULTED = 2 (spec/10_state.md R27). -/
def RunState.code : RunState → Nat
  | .running => 0
  | .halted => 1
  | .faulted => 2

/-- The cause codes 0 to 4 (spec/10_state.md R28). -/
def FaultCause.code : FaultCause → Nat
  | .none => 0
  | .unrecognizedOpcode => 1
  | .outOfBounds => 2
  | .invalidRegister => 3
  | .unsupportedOperation => 4

/-- What the status port presents to the host at all times (spec/60_exceptions.md R183). -/
structure Status where
  runState : Nat
  faultCause : Nat
  faultPc : Nat
  faultInfo : Int
  deriving DecidableEq, Repr

/-- The status port (spec/60_exceptions.md R183). -/
def State.status (s : State) : Status where
  runState := s.runState.code
  faultCause := s.faultCause.code
  faultPc := s.faultPc
  faultInfo := s.faultInfo

/-- The source's "Fatal termination signal": a host that makes an exit code of the status exits
non-zero exactly then (spec/60_exceptions.md R183). -/
def State.fatalSignal (s : State) : Bool := s.runState = .faulted

end Sys2Proof.Machine
end

