-- ==== Sys2Proof/Safety.lean ====
section
/-! DEFINITION. What claims take as a good state and a good end of a run. -/

namespace Sys2Proof.Machine

/-! ## The terms claims use -/

/-- The byte at `pc + k`, which the fetch reads: the opcode for `k = 0`, the operands for 1 and 2
(spec/40_loop.md R81, R82). -/
def State.codeByte (s : State) (k : Nat) : Byte := s.mem.byteAt (s.pc + k)

/-- The six opcode bytes (spec/30_encoding.md R64). -/
def opcodes : List Byte := [1, 69, 70, 71, 130, 162]

/-- `s` with a fault record, written out: the state the spec gives after `raise E(info)` at `s`
(spec/60_exceptions.md R170). -/
def State.faultedWith (s : State) (cause : FaultCause) (info : Int) : State :=
  { s with runState := .faulted, faultCause := cause, faultPc := s.pc, faultInfo := info }

/-- The first fault that applies to a step from `s`, in the order of spec/60_exceptions.md R174. Item 8,
UnsupportedOperation, is unreachable and so has no line. -/
def State.firstFault (s : State) : Option (FaultCause × Int) :=
  if 255 < s.pc then some (.outOfBounds, s.pc)
  else if 255 < s.pc + 1 then some (.outOfBounds, s.pc + 1)
  else if 255 < s.pc + 2 then some (.outOfBounds, s.pc + 2)
  else if s.codeByte 0 ∉ opcodes then some (.unrecognizedOpcode, (s.codeByte 0).toNat)
  else if s.codeByte 0 ≠ 1 ∧ 7 < (s.codeByte 1).toNat then some (.invalidRegister, (s.codeByte 1).toNat)
  else if s.codeByte 0 = 162 ∧ 7 < (s.codeByte 2).toNat then some (.invalidRegister, (s.codeByte 2).toNat)
  else if s.codeByte 0 = 69 ∧ s.sp - 1 < 0 then some (.outOfBounds, s.sp - 1)
  else if s.codeByte 0 = 70 ∧ 255 < s.sp + 1 then some (.outOfBounds, s.sp + 1)
  else none

/-- Every byte of memory reads the same in `t` as in `s`. -/
def sameMemory (s t : State) : Prop := ∀ a : Nat, t.mem.byteAt a = s.mem.byteAt a

/-- The run state and the fault record are the same in `t` as in `s`. -/
def sameStatus (s t : State) : Prop :=
  t.runState = s.runState ∧ t.faultCause = s.faultCause ∧ t.faultPc = s.faultPc ∧ t.faultInfo = s.faultInfo

/-- The instructions of a list, one after another, each run by `exec` in the state the one before left. -/
def execAll : List Instr → State → Host.Outcome State Fault Refusal
  | [], s => .next s
  | i :: is, s =>
    match exec i s with
    | .next t => execAll is t
    | .fault f => .fault f
    | .refused r => .refused r

/-! ## Good states and good ends -/

/-- The offending value a fault record may hold for its cause, given the state it was taken in: an
opcode byte no rule recognises, an address outside 0 to 255, or a register index of 8 to 255
(spec/60_exceptions.md R171). -/
def legalInfo : FaultCause → Int → Prop
  | .none, info => info = 0
  | .unrecognizedOpcode, info => 0 ≤ info ∧ info ≤ 255 ∧ info ∉ ([1, 69, 70, 71, 130, 162] : List Int)
  | .outOfBounds, info => info < 0 ∨ 255 < info
  | .invalidRegister, info => 8 ≤ info ∧ info ≤ 255
  | .unsupportedOperation, _ => False

/-- The invariant of every reachable state: memory in canonical form; `pc` one of 0 to 256
(spec/40_loop.md R88); `sp` in 0 to 255 (spec/44_stack.md R153); the fault record empty unless
FAULTED, and then a legal record of the instruction at `pc` (spec/10_state.md R28,
spec/60_exceptions.md R170, R171). -/
structure State.Inv (s : State) : Prop where
  memCanonical : s.mem.wf
  pcRange : s.pc ≤ 256
  spRange : 0 ≤ s.sp ∧ s.sp ≤ 255
  noRecord : s.runState ≠ .faulted → s.faultCause = .none ∧ s.faultPc = 0 ∧ s.faultInfo = 0
  record : s.runState = .faulted →
    s.faultCause ≠ .none ∧ s.faultPc = s.pc ∧ legalInfo s.faultCause s.faultInfo

/-- The bound that keeps `sp` above 0 in every run from the launch state (spec/44_stack.md R154): `pc`
has risen by at least 2 for each byte that `sp` has fallen from SP_INIT = 244, `pc` is at most 256
(spec/40_loop.md R88), and the fault record holds no negative address. -/
structure State.StackBound (s : State) : Prop where
  pushesPaid : 2 * 244 ≤ 2 * s.sp + s.pc
  pcRange : s.pc ≤ 256
  noNegativeInfo : 0 ≤ s.faultInfo

/-- The run is over (spec/70_reset_and_hazards.md R212). -/
def State.ended (s : State) : Prop := s.runState = .halted ∨ s.runState = .faulted

/-- A clean end: HALTED (spec/70_reset_and_hazards.md R212). -/
def State.cleanEnd (s : State) : Prop := s.runState = .halted

/-- A safe run of the program `p`: it has a launch state and does not end FAULTED
(spec/70_reset_and_hazards.md R212). -/
def SafeRun (p : List Nat) : Prop := ∃ s, launch p = some s ∧ (run s).runState ≠ .faulted

end Sys2Proof.Machine
end

