-- ==== Sys2Proof/WellFormed.lean ====
section
/-! DEFINITION. Well-formed instructions: those whose register operands name a register, that is the
instructions the assembly syntax `rN` can spell (spec/30_encoding.md R69, "`N`, `A` and `B` are 0 to
7"). An instruction that is not well formed still decodes and runs: it raises InvalidRegister
(R62). -/

namespace Sys2Proof

/-- The operand byte names one of r0 to r7 (spec/30_encoding.md R62). -/
def regOperandOk (r : Byte) : Bool := r.toNat < Config.numRegs

/-- Every register operand of the instruction names a register. The immediate may be any byte (R63). -/
def Instr.wellFormed : Instr → Bool
  | .halt => true
  | .print r => regOperandOk r
  | .loadImmediate r _ => regOperandOk r
  | .multiply a b => regOperandOk a && regOperandOk b
  | .push r => regOperandOk r
  | .pop r => regOperandOk r

/-- The operand byte that spells register `i` (spec/30_encoding.md R62, R69). -/
def regOperand (i : Fin Config.numRegs) : Byte := BitVec.ofNat 8 i.val

end Sys2Proof
end

