-- ==== Sys2Proof/Certificates/Slice0/Obligations.lean ====
section
/-! DEFINITION. The statements about the model, from the numbered rules of spec/. -/

open Sys2Proof Sys2Proof.Machine

/-! ## Reset, and where a step exists -/

/-- The reset transaction gives, from whatever state, the state of the table of spec/10_state.md R34
(spec/70_reset_and_hazards.md R200), and it is the only way out of HALTED and FAULTED: no step leaves
them. `sp` = 244 is the spec's own decision D2, given as a rule. -/
def Obligations.ResetGivesTheStatedState : Prop :=
  (∀ s : State, s.hostReset = State.reset) ∧
  (∀ a : Nat, a < 256 → State.reset.mem.byteAt a = 0) ∧
  (∀ i : RegIndex, State.reset.readReg i = 0) ∧
  State.reset.pc = 0 ∧ State.reset.sp = 244 ∧ State.reset.runState = .running ∧
  State.reset.faultCause.code = 0 ∧ State.reset.faultPc = 0 ∧ State.reset.faultInfo = 0 ∧
  State.reset.out = [] ∧
  ∀ s t : State, s.runState ≠ .running → step s ≠ .next t

/-- A step exists exactly while RUNNING, and there it is total (spec/40_loop.md section 1 and its
derived totality); a state that is over stays as it is however long the loop is let run
(spec/41_halt.md, spec/60_exceptions.md section 3). -/
def Obligations.StepExistsExactlyWhileRunning : Prop :=
  ∀ s : State, ((∃ t, step s = .next t) ↔ s.runState = .running) ∧
    (s.runState ≠ .running → ∀ n, runFor n s = s)

/-! ## Memory -/

/-- spec/20_memory.md R40. -/
def Obligations.MemoryReadIsBoundsChecked : Prop :=
  ∀ (m : Memory) (addr : Int),
    (addr < 0 ∨ 255 < addr → m.read addr = .error (.outOfBounds addr)) ∧
    (0 ≤ addr ∧ addr ≤ 255 → m.read addr = .ok (m.byteAt addr.toNat))

/-- The write transaction of spec/20_memory.md section 1: out of bounds it fails; in bounds it replaces
that cell and no other, and it keeps the canonical form (log entry 2). -/
def Obligations.MemoryWriteReplacesOneCell : Prop :=
  ∀ (m : Memory) (addr : Int) (v : Byte),
    (addr < 0 ∨ 255 < addr → m.write addr v = .error (.outOfBounds addr)) ∧
    (0 ≤ addr ∧ addr ≤ 255 → ∃ m', m.write addr v = .ok m' ∧ m'.byteAt addr.toNat = v ∧
      (∀ b : Nat, b ≠ addr.toNat → m'.byteAt b = m.byteAt b) ∧ (m.wf → m'.wf))

/-- spec/20_memory.md R42: writing a value twice leaves the same memory as writing it once, the value is
read back, and no other address is changed. A read answers a byte and no memory, so it changes none. -/
def Obligations.MemoryWritesAreIdempotentOverwrites : Prop :=
  ∀ (m m' : Memory) (addr : Int) (v : Byte), m.write addr v = .ok m' →
    m'.write addr v = .ok m' ∧ m'.read addr = .ok v ∧
    ∀ b : Int, b ≠ addr → m'.read b = m.read b

/-- The model's representation (log entry 2) is faithful: two canonical memories whose 256 cells
(spec/10_state.md section 2) read alike are the same data. -/
def Obligations.CanonicalMemoriesWithEqualBytesAreEqual : Prop :=
  ∀ m m' : Memory, m.wf → m'.wf → (∀ a : Nat, a < 256 → m.byteAt a = m'.byteAt a) → m = m'

/-! ## The ALU -/

/-- spec/43_alu.md R130 and R132: the two tags, each computed exactly and then reduced modulo 256. -/
def Obligations.AluIsExactThenModulo256 : Prop :=
  (∀ tag : AluOp, tag = .add ∨ tag = .mul) ∧
  ∀ p q : Byte, (alu .add p q).toNat = (p.toNat + q.toNat) % 256 ∧
    (alu .mul p q).toNat = p.toNat * q.toNat % 256

/-- The ALU's laws, which the spec derives (spec/43_alu.md section 3). -/
def Obligations.AluCommutesAndAssociates : Prop :=
  ∀ (tag : AluOp) (p q r : Byte), alu tag p q = alu tag q p ∧
    alu tag (alu tag p q) r = alu tag p (alu tag q r)

/-! ## Encoding -/

/-- spec/30_encoding.md R64, row by row: the opcode byte, the operand bytes and the width. -/
def Obligations.OpcodeMapIsBitExact : Prop :=
  ∀ a b : Byte,
    (encode .halt = [0b00000001] ∧ Instr.halt.width = 1) ∧
    (encode (.print a) = [0b01000111, a] ∧ (Instr.print a).width = 2) ∧
    (encode (.loadImmediate a b) = [0b10000010, a, b] ∧ (Instr.loadImmediate a b).width = 3) ∧
    (encode (.multiply a b) = [0b10100010, a, b] ∧ (Instr.multiply a b).width = 3) ∧
    (encode (.push a) = [0b01000101, a] ∧ (Instr.push a).width = 2) ∧
    (encode (.pop a) = [0b01000110, a] ∧ (Instr.pop a).width = 2)

/-- spec/40_loop.md R83: six arms by the whole opcode byte, and the arm that carries any other byte. -/
def Obligations.DispatchSelectsOneOfSevenArms : Prop :=
  ∀ op b1 b2 : Byte,
    decode 1 b1 b2 = .known .halt ∧
    decode 71 b1 b2 = .known (.print b1) ∧
    decode 130 b1 b2 = .known (.loadImmediate b1 b2) ∧
    decode 162 b1 b2 = .known (.multiply b1 b2) ∧
    decode 69 b1 b2 = .known (.push b1) ∧
    decode 70 b1 b2 = .known (.pop b1) ∧
    (op ≠ 1 → op ≠ 71 → op ≠ 130 → op ≠ 162 → op ≠ 69 → op ≠ 70 → decode op b1 b2 = .unknown op)

/-- The fetched bytes an instruction does not use never change what it does (spec/30_encoding.md
section 4): windows that differ only in them decode to the same instruction. -/
def Obligations.UnusedOperandBytesNeverMatter : Prop :=
  ∀ b1 b2 c1 c2 : Byte, decode 1 b1 b2 = decode 1 c1 c2 ∧
    ∀ op : Byte, op = 71 ∨ op = 69 ∨ op = 70 → decode op b1 b2 = decode op b1 c2

/-- Decode and encode agree on whole programs (spec/30_encoding.md sections 1, 3 and 5): the bytes of
any instructions, laid back to back with any bytes after them, are read back as exactly those
instructions, with every operand at every value. The reader of byte sequences, `decodeProgram`, is the
model's own (DESIGN CHOICE, log entry 8): where nothing follows a last HALT, PRINT, PUSH or POP it takes
the missing bytes of the window as 0, which those instructions ignore. -/
def Obligations.ProgramBytesDecodeBack : Prop :=
  ∀ (is : List Instr) (after : List Byte),
    decodeProgram is.length (is.flatMap encode ++ after) = some (is, after)

/-- Decode and encode agree on one instruction: as a table word with its first byte in the lowest bits
(spec/opcode_table.json), and as a fetch window in which two more bytes follow (spec/30_encoding.md
sections 1 and 4). -/
def Obligations.TableWordsAndWindowsDecodeBack : Prop :=
  ∀ (i : Instr) (p q : Byte),
    decodeTableWord (8 * i.width) (packBytes (encode i)) = some i ∧
    decode ((encode i ++ [p, q]).getD 0 0) ((encode i ++ [p, q]).getD 1 0)
      ((encode i ++ [p, q]).getD 2 0) = .known i

/-- An instruction is read only from its own encoding (spec/30_encoding.md section 3): a window that
decodes to it begins with its bytes. -/
def Obligations.EachInstructionHasOneEncoding : Prop :=
  ∀ (op b1 b2 : Byte) (i : Instr), decode op b1 b2 = .known i → encode i = [op, b1, b2].take i.width

/-- spec/30_encoding.md R62: 0 to 7 selects a register, unmasked; 8 to 255 raises InvalidRegister with
the index, in every register field of every instruction. -/
def Obligations.RegisterOperandsAreChecked : Prop :=
  (∀ (r : Byte) (h : r.toNat < 8), checkReg r = .ok ⟨r.toNat, h⟩) ∧
  ∀ (r : Byte) (s : State), 7 < r.toNat →
    checkReg r = .error (.invalidRegister r) ∧
    exec (.print r) s = .next (s.faultedWith .invalidRegister r.toNat) ∧
    (∀ imm, exec (.loadImmediate r imm) s = .next (s.faultedWith .invalidRegister r.toNat)) ∧
    (∀ b, exec (.multiply r b) s = .next (s.faultedWith .invalidRegister r.toNat)) ∧
    (∀ a, a.toNat < 8 → exec (.multiply a r) s = .next (s.faultedWith .invalidRegister r.toNat)) ∧
    exec (.push r) s = .next (s.faultedWith .invalidRegister r.toNat) ∧
    exec (.pop r) s = .next (s.faultedWith .invalidRegister r.toNat)

/-! ## Where each instruction completes, and with what -/

/-- HALT completes from every state (spec/41_halt.md). -/
def Obligations.HaltCompletes : Prop :=
  ∀ s : State, exec .halt s = .next { s with runState := .halted }

/-- LOAD-IMMEDIATE completes for every register and every immediate (spec/42_register.md). -/
def Obligations.LoadImmediateCompletes : Prop :=
  ∀ (s : State) (r imm : Byte) (h : r.toNat < 8),
    exec (.loadImmediate r imm) s = .next { s with x := s.x.set r.toNat imm h, pc := s.pc + 3 }

/-- PRINT completes for every register (spec/42_register.md). -/
def Obligations.PrintCompletes : Prop :=
  ∀ (s : State) (r : Byte) (h : r.toNat < 8),
    exec (.print r) s = .next { s with out := s.out ++ [s.x[r.toNat]'h], pc := s.pc + 2 }

/-- MULTIPLY completes for every two registers, the same one twice included, and writes the low 8 bits
of the product (spec/43_alu.md). -/
def Obligations.MultiplyCompletes : Prop :=
  ∀ (s : State) (a b : Byte) (ha : a.toNat < 8) (hb : b.toNat < 8),
    exec (.multiply a b) s = .next { s with
      x := s.x.set a.toNat (BitVec.ofNat 8 ((s.x[a.toNat]'ha).toNat * (s.x[b.toNat]'hb).toNat % 256)) ha
      pc := s.pc + 3 }

/-- PUSH completes for every register wherever the address `sp - 1` exists (spec/44_stack.md). -/
def Obligations.PushCompletes : Prop :=
  ∀ (s : State) (r : Byte) (h : r.toNat < 8), 0 ≤ s.sp - 1 → s.sp - 1 ≤ 255 →
    ∃ m : Memory, exec (.push r) s = .next { s with mem := m, sp := s.sp - 1, pc := s.pc + 2 } ∧
      m.byteAt (s.sp - 1).toNat = s.x[r.toNat]'h ∧
      ∀ a : Nat, a ≠ (s.sp - 1).toNat → m.byteAt a = s.mem.byteAt a

/-- POP completes for every register wherever `mem[sp]` exists and `sp + 1` is at most 255
(spec/44_stack.md). -/
def Obligations.PopCompletes : Prop :=
  ∀ (s : State) (r : Byte) (h : r.toNat < 8), 0 ≤ s.sp → s.sp ≤ 254 →
    exec (.pop r) s = .next { s with
      x := s.x.set r.toNat (s.mem.byteAt s.sp.toNat) h, sp := s.sp + 1, pc := s.pc + 2 }

/-! ## The instruction rules, as steps -/

/-- spec/41_halt.md R100: encoding, effect, and the fetch faults at 254 and 255. -/
def Obligations.HaltRule : Prop :=
  encode .halt = [1] ∧
  ∀ s : State, s.runState = .running → s.codeByte 0 = 1 →
    (s.pc ≤ 253 → step s = .next { s with runState := .halted }) ∧
    (s.pc = 254 ∨ s.pc = 255 → step s = .next (s.faultedWith .outOfBounds 256))

/-- spec/42_register.md R110: encoding, effect, and both exceptions. -/
def Obligations.LoadImmediateRule : Prop :=
  (∀ r imm, encode (.loadImmediate r imm) = [130, r, imm]) ∧
  ∀ s : State, s.runState = .running → s.codeByte 0 = 130 →
    (s.pc ≤ 253 → ∀ h : (s.codeByte 1).toNat < 8,
      step s = .next { s with x := s.x.set (s.codeByte 1).toNat (s.codeByte 2) h, pc := s.pc + 3 }) ∧
    (s.pc ≤ 253 → 7 < (s.codeByte 1).toNat →
      step s = .next (s.faultedWith .invalidRegister (s.codeByte 1).toNat)) ∧
    (254 ≤ s.pc → step s = .next (s.faultedWith .outOfBounds (max 256 s.pc : Nat)))

/-- spec/42_register.md R111: encoding, effect, and both exceptions. -/
def Obligations.PrintRule : Prop :=
  (∀ r, encode (.print r) = [71, r]) ∧
  ∀ s : State, s.runState = .running → s.codeByte 0 = 71 →
    (s.pc ≤ 253 → ∀ h : (s.codeByte 1).toNat < 8,
      step s = .next { s with out := s.out ++ [s.x[(s.codeByte 1).toNat]'h], pc := s.pc + 2 }) ∧
    (s.pc ≤ 253 → 7 < (s.codeByte 1).toNat →
      step s = .next (s.faultedWith .invalidRegister (s.codeByte 1).toNat)) ∧
    (254 ≤ s.pc → step s = .next (s.faultedWith .outOfBounds (max 256 s.pc : Nat)))

/-- spec/43_alu.md R135: encoding, effect, and the exceptions in their order. -/
def Obligations.MultiplyRule : Prop :=
  (∀ a b, encode (.multiply a b) = [162, a, b]) ∧
  ∀ s : State, s.runState = .running → s.codeByte 0 = 162 →
    (s.pc ≤ 253 → ∀ (ha : (s.codeByte 1).toNat < 8) (hb : (s.codeByte 2).toNat < 8),
      step s = .next { s with
        x := s.x.set (s.codeByte 1).toNat (BitVec.ofNat 8
          ((s.x[(s.codeByte 1).toNat]'ha).toNat * (s.x[(s.codeByte 2).toNat]'hb).toNat % 256)) ha
        pc := s.pc + 3 }) ∧
    (s.pc ≤ 253 → 7 < (s.codeByte 1).toNat →
      step s = .next (s.faultedWith .invalidRegister (s.codeByte 1).toNat)) ∧
    (s.pc ≤ 253 → (s.codeByte 1).toNat < 8 → 7 < (s.codeByte 2).toNat →
      step s = .next (s.faultedWith .invalidRegister (s.codeByte 2).toNat)) ∧
    (254 ≤ s.pc → step s = .next (s.faultedWith .outOfBounds (max 256 s.pc : Nat)))

/-- PUSH as spec/44_stack.md section 2 gives it: encoding, effect, and the exceptions in their order,
with `sp` in the range the spec derives (section 4; the invariant `State.Inv` says it). -/
def Obligations.PushRule : Prop :=
  (∀ r, encode (.push r) = [69, r]) ∧
  ∀ s : State, s.runState = .running → s.codeByte 0 = 69 → 0 ≤ s.sp → s.sp ≤ 255 →
    (s.pc ≤ 253 → ∀ h : (s.codeByte 1).toNat < 8, 1 ≤ s.sp →
      ∃ m : Memory, step s = .next { s with mem := m, sp := s.sp - 1, pc := s.pc + 2 } ∧
        m.byteAt (s.sp - 1).toNat = s.x[(s.codeByte 1).toNat]'h ∧
        ∀ a : Nat, a ≠ (s.sp - 1).toNat → m.byteAt a = s.mem.byteAt a) ∧
    (s.pc ≤ 253 → 7 < (s.codeByte 1).toNat →
      step s = .next (s.faultedWith .invalidRegister (s.codeByte 1).toNat)) ∧
    (s.pc ≤ 253 → (s.codeByte 1).toNat < 8 → s.sp = 0 →
      step s = .next (s.faultedWith .outOfBounds (-1))) ∧
    (254 ≤ s.pc → step s = .next (s.faultedWith .outOfBounds (max 256 s.pc : Nat)))

/-- spec/44_stack.md R152: encoding, effect, and the exceptions in their order, with `sp` in 0 to 255
as the rule says it is (the invariant `State.Inv` says it). -/
def Obligations.PopRule : Prop :=
  (∀ r, encode (.pop r) = [70, r]) ∧
  ∀ s : State, s.runState = .running → s.codeByte 0 = 70 → 0 ≤ s.sp → s.sp ≤ 255 →
    (s.pc ≤ 253 → ∀ h : (s.codeByte 1).toNat < 8, s.sp ≤ 254 →
      step s = .next { s with
        x := s.x.set (s.codeByte 1).toNat (s.mem.byteAt s.sp.toNat) h, sp := s.sp + 1, pc := s.pc + 2 }) ∧
    (s.pc ≤ 253 → 7 < (s.codeByte 1).toNat →
      step s = .next (s.faultedWith .invalidRegister (s.codeByte 1).toNat)) ∧
    (s.pc ≤ 253 → (s.codeByte 1).toNat < 8 → s.sp = 255 →
      step s = .next (s.faultedWith .outOfBounds 256)) ∧
    (254 ≤ s.pc → step s = .next (s.faultedWith .outOfBounds (max 256 s.pc : Nat)))

/-! ## Faults -/

/-- spec/40_loop.md R82: at 254 and 255 every step raises OutOfBounds(256), whatever byte is at `pc`;
above 255 the opcode fetch raises OutOfBounds(pc); so only an instruction that starts at 253 or below
completes. -/
def Obligations.OverFetchFaults : Prop :=
  ∀ s : State, s.runState = .running →
    (s.pc = 254 ∨ s.pc = 255 → step s = .next (s.faultedWith .outOfBounds 256)) ∧
    (255 < s.pc → step s = .next (s.faultedWith .outOfBounds s.pc)) ∧
    (∀ t, step s = .next t → t.runState ≠ .faulted → s.pc ≤ 253)

/-- spec/40_loop.md R85: a byte that is none of the six opcodes raises UnrecognizedOpcode with its
address and itself, once both operand reads have succeeded; where they do not, OutOfBounds comes
first. -/
def Obligations.UnrecognizedOpcodeFaults : Prop :=
  ∀ s : State, s.runState = .running → s.codeByte 0 ∉ opcodes →
    (s.pc ≤ 253 → step s = .next (s.faultedWith .unrecognizedOpcode (s.codeByte 0).toNat)) ∧
    (254 ≤ s.pc → step s = .next (s.faultedWith .outOfBounds (max 256 s.pc : Nat)))

/-- spec/60_exceptions.md R170: a step that ends FAULTED wrote the run state and the fault record of
one raised fault and nothing else, not memory, a register, `pc`, `sp` or the output; and no step
follows. -/
def Obligations.FaultsArePreciseAndTerminal : Prop :=
  ∀ s t : State, step s = .next t → t.runState = .faulted →
    (∃ e : Trap, t.faultCause = e.cause ∧ t.faultInfo = e.info) ∧ t.faultPc = s.pc ∧
    t.mem = s.mem ∧ t.x = s.x ∧ t.pc = s.pc ∧ t.sp = s.sp ∧ t.out = s.out ∧
    ∀ u, step t ≠ .next u

/-- spec/60_exceptions.md R174: a step reports the first fault of the list that applies, and faults only
if one applies; `sp` is in 0 to 255 (the invariant `State.Inv` says it). -/
def Obligations.FirstFaultInPriorityOrder : Prop :=
  ∀ s : State, s.runState = .running → 0 ≤ s.sp → s.sp ≤ 255 →
    (∀ c info, s.firstFault = some (c, info) → step s = .next (s.faultedWith c info)) ∧
    (s.firstFault = none → ∃ t, step s = .next t ∧ t.runState ≠ .faulted)

/-! ## Whole-machine rules -/

/-- spec/40_loop.md R84: a step that completes and is not HALT advances `pc` by the instruction's width;
HALT and a fault leave it. -/
def Obligations.PcAdvancesByWidth : Prop :=
  ∀ s t : State, step s = .next t →
    (t.runState = .running →
      ((s.codeByte 0 = 130 ∨ s.codeByte 0 = 162) ∧ t.pc = s.pc + 3) ∨
      ((s.codeByte 0 = 71 ∨ s.codeByte 0 = 69 ∨ s.codeByte 0 = 70) ∧ t.pc = s.pc + 2)) ∧
    (t.runState = .halted → s.codeByte 0 = 1 ∧ t.pc = s.pc) ∧
    (t.runState = .faulted → t.pc = s.pc)

/-- spec/10_state.md R30: the trace is empty at reset; only PRINT appends, one value a PRINT, the
register's; nothing removes an element. -/
def Obligations.OnlyPrintAppendsToOutput : Prop :=
  State.reset.out = [] ∧
  ∀ s t : State, step s = .next t →
    (t.out = s.out ∧ (t.runState = .running → s.codeByte 0 ≠ 71)) ∨
    (s.codeByte 0 = 71 ∧ ∃ h : (s.codeByte 1).toNat < 8, t.out = s.out ++ [s.x[(s.codeByte 1).toNat]'h])

/-- "Only PUSH and POP change `sp`" (spec/10_state.md section 5), by one, down and up. -/
def Obligations.OnlyPushAndPopMoveSp : Prop :=
  ∀ s t : State, step s = .next t → t.sp ≠ s.sp →
    (s.codeByte 0 = 69 ∧ t.sp = s.sp - 1) ∨ (s.codeByte 0 = 70 ∧ t.sp = s.sp + 1)

/-- Only PUSH writes memory, and only the cell at `sp - 1`, with the register's value (spec/20_memory.md
section 3). -/
def Obligations.OnlyPushWritesMemory : Prop :=
  ∀ (s t : State) (a : Nat), step s = .next t → t.mem.byteAt a ≠ s.mem.byteAt a →
    s.codeByte 0 = 69 ∧ (a : Int) = s.sp - 1 ∧
      ∃ h : (s.codeByte 1).toNat < 8, t.mem.byteAt a = s.x[(s.codeByte 1).toNat]'h

/-- Only LOAD-IMMEDIATE, MULTIPLY and POP write a register, and only the one their first operand names
(spec/10_state.md section 3). -/
def Obligations.OnlyThreeInstructionsWriteRegisters : Prop :=
  ∀ (s t : State) (i : RegIndex), step s = .next t → t.readReg i ≠ s.readReg i →
    (s.codeByte 0 = 130 ∨ s.codeByte 0 = 162 ∨ s.codeByte 0 = 70) ∧ i.val = (s.codeByte 1).toNat

/-- A step ends HALTED exactly where it runs HALT (spec/10_state.md section 6, spec/41_halt.md). -/
def Obligations.OnlyHaltHalts : Prop :=
  ∀ s t : State, step s = .next t → (t.runState = .halted ↔ s.pc ≤ 253 ∧ s.codeByte 0 = 1)

/-! ## Frames -/

/-- What HALT, PRINT, LOAD-IMMEDIATE and MULTIPLY leave unchanged (spec/10_state.md section 3,
spec/20_memory.md section 3). Only LOAD-IMMEDIATE and MULTIPLY write a register, their first
operand's; only PRINT adds to the output; the run state and the fault record are written only by HALT
(the run state) and where a register operand is above 7. -/
def Obligations.RegisterInstructionsFrame : Prop :=
  ∀ s t : State,
    (exec .halt s = .next t → t.x = s.x ∧ t.sp = s.sp ∧ t.out = s.out ∧ t.faultCause = s.faultCause ∧
      t.faultPc = s.faultPc ∧ t.faultInfo = s.faultInfo ∧ sameMemory s t) ∧
    (∀ r, exec (.print r) s = .next t → t.x = s.x ∧ t.sp = s.sp ∧ s.out <+: t.out ∧
      (r.toNat < 8 → sameStatus s t) ∧ (7 < r.toNat → t.out = s.out) ∧ sameMemory s t) ∧
    (∀ r imm, exec (.loadImmediate r imm) s = .next t →
      (∀ i : RegIndex, i.val ≠ r.toNat → t.readReg i = s.readReg i) ∧ t.sp = s.sp ∧ t.out = s.out ∧
      (r.toNat < 8 → sameStatus s t) ∧ sameMemory s t) ∧
    (∀ a b, exec (.multiply a b) s = .next t →
      (∀ i : RegIndex, i.val ≠ a.toNat → t.readReg i = s.readReg i) ∧ t.sp = s.sp ∧ t.out = s.out ∧
      (a.toNat < 8 → b.toNat < 8 → sameStatus s t) ∧ (7 < b.toNat → t.x = s.x) ∧ sameMemory s t)

/-- What PUSH and POP leave unchanged. Both also update `sp`; PUSH stores one byte, at the address its
own meaning computes (`pushAddr`), and POP stores none; where either faults, nothing is stored and `sp`
stays (spec/44_stack.md sections 2 and 3). -/
def Obligations.StackInstructionsFrame : Prop :=
  ∀ (s t : State) (r : Byte),
    (exec (.push r) s = .next t → t.x = s.x ∧ t.out = s.out ∧ (t.sp = s.sp ∨ t.sp = s.sp - 1) ∧
      (r.toNat < 8 → 0 ≤ s.sp - 1 → s.sp - 1 ≤ 255 → sameStatus s t) ∧
      (7 < r.toNat ∨ s.sp - 1 < 0 ∨ 255 < s.sp - 1 → t.sp = s.sp ∧ sameMemory s t) ∧
      ∀ addr : Int, pushAddr s = addr → ∀ b : Nat, (b : Int) ≠ addr → t.mem.byteAt b = s.mem.byteAt b) ∧
    (exec (.pop r) s = .next t → (∀ i : RegIndex, i.val ≠ r.toNat → t.readReg i = s.readReg i) ∧
      t.out = s.out ∧ (t.sp = s.sp ∨ t.sp = s.sp + 1) ∧
      (r.toNat < 8 → 0 ≤ s.sp → s.sp ≤ 254 → sameStatus s t) ∧
      (7 < r.toNat ∨ s.sp < 0 ∨ 254 < s.sp → t.sp = s.sp ∧ t.x = s.x) ∧ sameMemory s t)

/-- A step depends on memory only through its three fetched bytes and, for POP, `mem[sp]`
(spec/20_memory.md section 3): with another memory that agrees on those, it does the same to
everything else, and memory cells differ afterwards only where they differed before. -/
def Obligations.StepReadsOnlyItsWindow : Prop :=
  ∀ (s : State) (m : Memory), s.runState = .running →
    (∀ k, k < 3 → m.byteAt (s.pc + k) = s.mem.byteAt (s.pc + k)) →
    (s.codeByte 0 = 70 → m.byteAt s.sp.toNat = s.mem.byteAt s.sp.toNat) →
    ∃ t t' : State, step s = .next t ∧ step { s with mem := m } = .next t' ∧
      t' = { t with mem := t'.mem } ∧
      ∀ a : Nat, t'.mem.byteAt a ≠ t.mem.byteAt a → m.byteAt a ≠ s.mem.byteAt a

/-! ## Invariants -/

/-- The reset state (spec/10_state.md section 10) meets the invariant. The canonical memory in it is the
model's own (DESIGN CHOICE, log entry 2); the ranges of `pc` and `sp` are inferences the spec marks as
its own (spec/40_loop.md section 2, spec/44_stack.md section 4); the empty record is spec/10_state.md
section 6. -/
def Obligations.ResetSatisfiesTheInvariant : Prop := State.reset.Inv

/-- Every step from a state that meets the invariant gives one that does: memory canonical (log entry
2), `pc` at most 256, `sp` in 0 to 255, and the fault record empty or a legal record of the
instruction at `pc`. The ranges are inferences the spec marks as its own (spec/40_loop.md section 2,
spec/44_stack.md section 4). -/
def Obligations.StepKeepsTheInvariant : Prop :=
  ∀ s t : State, s.Inv → step s = .next t → t.Inv

/-- spec/70_reset_and_hazards.md R201: the launch state is the reset state with the program at 0 up and
zeros above. -/
def Obligations.LaunchWritesTheProgram : Prop :=
  ∀ p : List Nat, p.length ≤ 256 → (∀ v ∈ p, v ≤ 255) →
    ∃ s : State, launch p = some s ∧
      (∀ i : Nat, i < 256 → (s.mem.byteAt i).toNat = if i < p.length then p.getD i 0 else 0) ∧
      (∀ i : RegIndex, s.readReg i = 0) ∧ s.pc = 0 ∧ s.sp = 244 ∧ s.runState = .running ∧
      s.faultCause.code = 0 ∧ s.faultPc = 0 ∧ s.faultInfo = 0 ∧ s.out = []

/-- Input that is no sequence of at most 256 bytes has no launch state (spec/70_reset_and_hazards.md
section 1, the spec's decision D17). -/
def Obligations.LaunchRefusesOtherInput : Prop :=
  ∀ p : List Nat, launch p = none ↔ (256 < p.length ∨ ∃ v ∈ p, 255 < v)

/-- Every state of every run from a launch state meets the whole invariant: the canonical memory, which
is the model's own (DESIGN CHOICE, log entry 2); `pc` at most 256 and `sp` in 0 to 255, which are
inferences the spec marks as its own (spec/40_loop.md section 2, spec/44_stack.md section 4); and the
fault record empty or legal (spec/10_state.md section 6, spec/60_exceptions.md section 1). -/
def Obligations.LaunchedRunsKeepTheInvariant : Prop :=
  ∀ (p : List Nat) (s : State), launch p = some s → ∀ n : Nat, (runFor n s).Inv

/-- Every run is over within 128 steps, from any state whatever, and letting the loop go on changes
nothing (spec/40_loop.md section 2, which the spec derives). -/
def Obligations.EveryRunEndsWithin128Steps : Prop :=
  ∀ s : State, (runFor 128 s).ended ∧ run s = runFor 128 s ∧ ∀ n : Nat, runFor (128 + n) s = run s

/-- A program's run is safe, that is it does not end FAULTED, exactly if it ends HALTED: there is no
third end (spec/70_reset_and_hazards.md section 4, which the spec derives). -/
def Obligations.SafeRunsAreThoseThatHalt : Prop :=
  ∀ p : List Nat, SafeRun p ↔ ∃ s : State, launch p = some s ∧ (run s).cleanEnd

/-- Every step keeps the bound behind the spec's inference that no program reaches PUSH's stack fault
(spec/44_stack.md section 4): each PUSH lowers `sp` by 1 and raises `pc` by 2, so `2 * sp + pc` never
falls below its value after reset, `pc` stays at most 256, and no negative address is recorded. The
bound rests on SP_INIT = 244, the spec's decision D2 (log entry 1). It is a step lemma, of every state
that meets it. -/
def Obligations.StepKeepsTheStackAboveZero : Prop :=
  ∀ s t : State, s.StackBound → step s = .next t → t.StackBound

/-- The reset state meets that bound (spec/10_state.md section 10; SP_INIT = 244 is the spec's decision
D2, log entry 1). -/
def Obligations.ResetMeetsTheStackBound : Prop := State.reset.StackBound

/-- No run from a launch state reaches PUSH's OutOfBounds(-1): `sp` stays above 0 and no negative
address is recorded (spec/44_stack.md section 4, which the spec derives; it rests on SP_INIT = 244,
the spec's decision D2). -/
def Obligations.LaunchedRunsNeverOverflowTheStack : Prop :=
  ∀ (p : List Nat) (s : State), launch p = some s →
    ∀ n : Nat, 0 < (runFor n s).sp ∧ 0 ≤ (runFor n s).faultInfo

/-! ## The stack -/

/-- PUSH A then POP B puts A's value into B and `sp` back, for all A and B, A = B included; the pushed
cell keeps its value (spec/44_stack.md section 4, which the spec derives). -/
def Obligations.PushThenPopRoundTrips : Prop :=
  ∀ (s : State) (a b : RegIndex), 1 ≤ s.sp → s.sp ≤ 255 →
    ∃ m : Memory, execAll [.push (regOperand a), .pop (regOperand b)] s =
        .next { s with mem := m, x := s.x.set b (s.readReg a), pc := s.pc + 4 } ∧
      m.byteAt (s.sp - 1).toNat = s.readReg a

/-- N pushes then N pops give the values back in reverse order, the `k`-th pop's register getting the
value pushed `k`-th from last; `sp` returns and the cells keep their values (spec/44_stack.md section
4, which the spec derives). -/
def Obligations.PopsReturnPushesInReverse : Prop :=
  ∀ (s : State) (rs ds : List RegIndex), rs.length = ds.length → (rs.length : Int) ≤ s.sp → s.sp ≤ 255 →
    ∃ u t : State,
      execAll (rs.map fun r => .push (regOperand r)) s = .next u ∧
      execAll (ds.map fun d => .pop (regOperand d)) u = .next t ∧
      t.sp = s.sp ∧ t.pc = s.pc + 4 * rs.length ∧
      (∀ k (hk : k < rs.length), t.mem.byteAt (s.sp - 1 - k).toNat = s.readReg rs[k]) ∧
      t.x = (ds.zip (rs.map s.readReg).reverse).foldl (fun x d => x.set d.1 d.2) s.x

/-- A PUSH is seen by the very next fetch: of the three bytes it reads, the one at the pushed address is
the register's value, and the others are as they were (spec/20_memory.md section 4, which the spec
derives). -/
def Obligations.PushIsSeenByTheNextFetch : Prop :=
  ∀ (s t : State) (h : (s.codeByte 1).toNat < 8), step s = .next t → t.runState = .running →
    s.codeByte 0 = 69 → t.pc ≤ 253 →
    fetch t = .ok (t.codeByte 0, t.codeByte 1, t.codeByte 2) ∧
      ∀ k, k < 3 →
        (((t.pc + k : Nat) : Int) = s.sp - 1 → t.codeByte k = s.x[(s.codeByte 1).toNat]'h) ∧
        (((t.pc + k : Nat) : Int) ≠ s.sp - 1 → t.codeByte k = s.mem.byteAt (t.pc + k))

/-! ## The step and the host's interface -/

/-- Where the bytes at `pc` decode to an instruction, the step is `exec` of it (spec/40_loop.md section
1): nothing is added around `exec` but the fetch. -/
def Obligations.StepRunsTheDecodedInstruction : Prop :=
  ∀ (s : State) (i : Instr), s.runState = .running → s.pc ≤ 253 →
    decode (s.codeByte 0) (s.codeByte 1) (s.codeByte 2) = .known i → step s = exec i s

/-- `withFetchWord` places a table word where the next step fetches (log entry 5): that step runs the
instruction the word decodes to. -/
def Obligations.FetchWordRunsNext : Prop :=
  ∀ (s : State) (nbits w : Nat) (i : Instr), s.runState = .running → s.pc ≤ 253 →
    decodeTableWord nbits w = some i →
    step (s.withFetchWord nbits w) = exec i (s.withFetchWord nbits w)

/-- The status port's codes and fields (spec/10_state.md section 6, spec/60_exceptions.md section 5), and
the fatal signal, given exactly when FAULTED. -/
def Obligations.StatusPortShowsTheState : Prop :=
  (RunState.running.code = 0 ∧ RunState.halted.code = 1 ∧ RunState.faulted.code = 2) ∧
  (FaultCause.none.code = 0 ∧ FaultCause.unrecognizedOpcode.code = 1 ∧ FaultCause.outOfBounds.code = 2 ∧
    FaultCause.invalidRegister.code = 3 ∧ FaultCause.unsupportedOperation.code = 4) ∧
  ∀ s : State, s.status.runState = s.runState.code ∧ s.status.faultCause = s.faultCause.code ∧
    s.status.faultPc = s.faultPc ∧ s.status.faultInfo = s.faultInfo ∧
    (s.fatalSignal = true ↔ s.status.runState = 2)
end

