-- ==== Sys2Proof/Laws/Decode.lean ====
section
/-! SUPPORT. What the decoder answers, byte by byte. -/

namespace Sys2Proof

open Machine

@[simp] theorem decode_halt (b1 b2 : Byte) : decode 1#8 b1 b2 = .known .halt := rfl
@[simp] theorem decode_print (b1 b2 : Byte) : decode 71#8 b1 b2 = .known (.print b1) := rfl
@[simp] theorem decode_loadImmediate (b1 b2 : Byte) :
    decode 130#8 b1 b2 = .known (.loadImmediate b1 b2) := rfl
@[simp] theorem decode_multiply (b1 b2 : Byte) : decode 162#8 b1 b2 = .known (.multiply b1 b2) := rfl
@[simp] theorem decode_push (b1 b2 : Byte) : decode 69#8 b1 b2 = .known (.push b1) := rfl
@[simp] theorem decode_pop (b1 b2 : Byte) : decode 70#8 b1 b2 = .known (.pop b1) := rfl

theorem decode_of_not_opcode {op : Byte} (h : op ∉ opcodes) (b1 b2 : Byte) :
    decode op b1 b2 = .unknown op := by
  simp only [opcodes, List.mem_cons, List.not_mem_nil, or_false, not_or] at h
  simp only [decode, h, if_false]

/-- Everything a decode can answer: one of the six instructions with its opcode byte, or the byte it
does not recognise. -/
theorem decode_cases (op b1 b2 : Byte) :
    (op = 1 ∧ decode op b1 b2 = .known .halt) ∨
    (op = 71 ∧ decode op b1 b2 = .known (.print b1)) ∨
    (op = 130 ∧ decode op b1 b2 = .known (.loadImmediate b1 b2)) ∨
    (op = 162 ∧ decode op b1 b2 = .known (.multiply b1 b2)) ∨
    (op = 69 ∧ decode op b1 b2 = .known (.push b1)) ∨
    (op = 70 ∧ decode op b1 b2 = .known (.pop b1)) ∨
    (op ∉ opcodes ∧ decode op b1 b2 = .unknown op) := by
  by_cases h : op ∈ opcodes
  · simp only [opcodes, List.mem_cons, List.not_mem_nil, or_false] at h
    rcases h with rfl | rfl | rfl | rfl | rfl | rfl <;> simp
  · simp [h, decode_of_not_opcode h]

/-- The opcode byte and the operands of a window that decodes to an instruction. -/
theorem decode_known_cases {op b1 b2 : Byte} {i : Instr} (h : decode op b1 b2 = .known i) :
    (op = 1 ∧ i = .halt) ∨ (op = 71 ∧ i = .print b1) ∨ (op = 130 ∧ i = .loadImmediate b1 b2) ∨
    (op = 162 ∧ i = .multiply b1 b2) ∨ (op = 69 ∧ i = .push b1) ∨ (op = 70 ∧ i = .pop b1) := by
  rcases decode_cases op b1 b2 with
    ⟨ho, hd⟩ | ⟨ho, hd⟩ | ⟨ho, hd⟩ | ⟨ho, hd⟩ | ⟨ho, hd⟩ | ⟨ho, hd⟩ | ⟨ho, hd⟩ <;>
    rw [h] at hd <;> cases hd <;> simp [ho]

end Sys2Proof
end

