-- ==== Sys2Proof/Laws/Memory.lean ====
section
/-! SUPPORT. The memory's laws: what a read answers after a write, and that every operation keeps the
canonical form. -/

namespace Sys2Proof.Machine.Memory

/-! ## Reading one byte -/

@[simp] theorem byteAt_nil (a : Nat) : byteAt [] a = Config.resetByte := rfl

theorem byteAt_cons (c : Host.Cell) (m : Memory) (a : Nat) :
    byteAt (c :: m) a = if c.1 = a then c.2 else byteAt m a := rfl

/-- A cell that no entry names reads as the reset byte. -/
theorem byteAt_of_unlisted {m : Memory} {a : Nat} (h : ∀ c ∈ m, c.1 ≠ a) :
    byteAt m a = Config.resetByte := by
  induction m with
  | nil => rfl
  | cons c m ih => simp_all [byteAt_cons]

theorem erase_cons (c : Host.Cell) (m : Memory) (a : Nat) :
    erase (c :: m) a = if c.1 = a then erase m a else c :: erase m a := by
  by_cases h : c.1 = a <;> simp [erase, h]

theorem mem_erase {m : Memory} {a : Nat} {c : Host.Cell} : c ∈ erase m a ↔ c ∈ m ∧ c.1 ≠ a := by
  simp [erase]

theorem byteAt_erase (m : Memory) (a b : Nat) :
    byteAt (erase m a) b = if a = b then Config.resetByte else byteAt m b := by
  induction m with
  | nil => simp [erase]
  | cons c m ih =>
    rw [erase_cons]; split
    · rw [ih, byteAt_cons]; by_cases hb : a = b <;> simp_all
    · rw [byteAt_cons, byteAt_cons, ih]; by_cases hb : a = b <;> simp_all

theorem mem_insert {a : Nat} {v : Byte} {m : Memory} {c : Host.Cell} :
    c ∈ insert a v m ↔ c = (a, v) ∨ c ∈ m := by
  induction m with
  | nil => simp [insert]
  | cons d m ih => rw [insert]; split <;> simp_all [or_left_comm]

theorem byteAt_insert (a : Nat) (v : Byte) (m : Memory) (h : ∀ c ∈ m, c.1 ≠ a) (b : Nat) :
    byteAt (insert a v m) b = if a = b then v else byteAt m b := by
  induction m with
  | nil => rfl
  | cons c m ih =>
    rw [insert]; split
    · rfl
    · rw [byteAt_cons, ih fun d hd => h d (List.mem_cons_of_mem _ hd), byteAt_cons]
      have := h c List.mem_cons_self
      split <;> split <;> simp_all

/-- A write is read back at its own address and changes no other cell: "each address names exactly
one cell" (spec/20_memory.md R41, R42). It holds of every list, canonical or not. -/
theorem byteAt_setByte (m : Memory) (a : Nat) (v : Byte) (b : Nat) :
    byteAt (setByte m a v) b = if a = b then v else byteAt m b := by
  unfold setByte
  split
  · next h => rw [byteAt_erase, h]
  · rw [byteAt_insert a v _ fun c hc => (mem_erase.mp hc).2, byteAt_erase]; split <;> rfl

theorem erase_of_unlisted {m : Memory} {a : Nat} (h : ∀ c ∈ m, c.1 ≠ a) : erase m a = m := by
  simp only [erase, List.filter_eq_self]
  intro c hc
  simp [h c hc]

/-- Taking a cell off the list undoes listing it. -/
theorem erase_insert {m : Memory} {a : Nat} (v : Byte) (h : ∀ c ∈ m, c.1 ≠ a) :
    erase (insert a v m) a = m := by
  induction m with
  | nil => simp [insert, erase]
  | cons c m ih =>
    rw [insert]; split
    · rw [erase_cons, if_pos rfl]; exact erase_of_unlisted h
    · rw [erase_cons, if_neg (h c List.mem_cons_self), ih fun d hd => h d (List.mem_cons_of_mem c hd)]

/-! ## The canonical form -/

theorem wf_nil : wf [] := by simp [wf]

theorem wf_erase {m : Memory} (h : m.wf) (a : Nat) : (erase m a).wf :=
  ⟨h.1.filter _, fun c hc => h.2 c (mem_erase.mp hc).1⟩

theorem wf_insert {m : Memory} (h : m.wf) {a : Nat} {v : Byte} (ha : a < Config.memSize)
    (hv : v ≠ Config.resetByte) (hu : ∀ c ∈ m, c.1 ≠ a) : (insert a v m).wf := by
  refine ⟨?_, fun c hc => ?_⟩
  · obtain ⟨hs, -⟩ := h
    induction m with
    | nil => simp [insert]
    | cons d m ih =>
      have hd := List.pairwise_cons.mp hs
      have hda := hu d List.mem_cons_self
      rw [insert]; split
      · next hlt =>
        refine List.pairwise_cons.mpr ⟨fun c hc => ?_, hs⟩
        rcases List.mem_cons.mp hc with rfl | hc
        · exact hlt
        · exact Nat.lt_trans hlt (hd.1 c hc)
      · refine List.pairwise_cons.mpr ⟨fun c hc => ?_, ih (fun c hc => hu c (List.mem_cons_of_mem _ hc)) hd.2⟩
        rcases mem_insert.mp hc with rfl | hc
        · show d.1 < a; omega
        · exact hd.1 c hc
  · rcases mem_insert.mp hc with rfl | hc
    · exact ⟨ha, hv⟩
    · exact h.2 c hc

/-- A write to an address that exists keeps the canonical form. -/
theorem wf_setByte {m : Memory} (h : m.wf) {a : Nat} (ha : a < Config.memSize) (v : Byte) :
    (setByte m a v).wf := by
  unfold setByte
  split
  · exact wf_erase h a
  · next hv => exact wf_insert (wf_erase h a) ha hv fun c hc => (mem_erase.mp hc).2

/-! ## The two transactions of the memory interface -/

theorem inMemory_iff (addr : Int) : inMemory addr = true ↔ 0 ≤ addr ∧ addr ≤ 255 := by
  cases addr with
  | ofNat n =>
    simp only [inMemory, decide_eq_true_eq, Config.memSize, Int.ofNat_eq_natCast]; omega
  | negSucc n =>
    have := Int.negSucc_lt_zero n
    simp only [inMemory, Bool.false_eq_true, false_iff]; omega

theorem read_inside (m : Memory) {addr : Int} (h : 0 ≤ addr ∧ addr ≤ 255) :
    m.read addr = .ok (m.byteAt addr.toNat) := by
  rw [Memory.read, if_pos ((inMemory_iff addr).mpr h)]

theorem read_outside (m : Memory) {addr : Int} (h : addr < 0 ∨ 255 < addr) :
    m.read addr = .error (.outOfBounds addr) := by
  rw [Memory.read, if_neg]; rw [inMemory_iff]; omega

theorem write_inside (m : Memory) {addr : Int} (h : 0 ≤ addr ∧ addr ≤ 255) (v : Byte) :
    m.write addr v = .ok (m.setByte addr.toNat v) := by
  rw [Memory.write, if_pos ((inMemory_iff addr).mpr h)]

theorem write_outside (m : Memory) {addr : Int} (h : addr < 0 ∨ 255 < addr) (v : Byte) :
    m.write addr v = .error (.outOfBounds addr) := by
  rw [Memory.write, if_neg]; rw [inMemory_iff]; omega

/-- Everything a write that succeeds can do. -/
theorem write_cases {m m' : Memory} {addr : Int} {v : Byte} (h : m.write addr v = .ok m') :
    (0 ≤ addr ∧ addr ≤ 255) ∧ m' = m.setByte addr.toNat v := by
  by_cases hr : 0 ≤ addr ∧ addr ≤ 255
  · rw [write_inside m hr v] at h; cases h; exact ⟨hr, rfl⟩
  · rw [write_outside m (by omega) v] at h; cases h

/-- A write keeps the canonical form. -/
theorem wf_write {m m' : Memory} {addr : Int} {v : Byte} (hm : m.wf) (h : m.write addr v = .ok m') :
    m'.wf := by
  obtain ⟨hr, rfl⟩ := write_cases h
  exact wf_setByte hm (by simp only [Config.memSize]; omega) v

/-! ## Placing bytes -/

/-- Placed bytes are read back at their addresses, in order, and no other cell changes. -/
theorem byteAt_placeBytes (a : Nat) (bs : List Byte) (m : Memory) (b : Nat) (h : a + bs.length ≤ Config.memSize) :
    byteAt (placeBytes a bs m) b = if a ≤ b then bs.getD (b - a) (byteAt m b) else byteAt m b := by
  induction bs generalizing a m with
  | nil => simp [placeBytes]
  | cons c bs ih =>
    simp only [List.length_cons] at h
    rw [placeBytes, if_pos (by omega), ih _ _ (by omega), byteAt_setByte]
    rcases Nat.lt_trichotomy a b with hb | rfl | hb
    · obtain ⟨k, rfl⟩ := Nat.exists_eq_add_of_lt hb
      simp only [show a + 1 ≤ a + k + 1 by omega, show a ≤ a + k + 1 by omega,
        show ¬ a = a + k + 1 by omega, if_true, if_false, show a + k + 1 - a = k + 1 by omega,
        show a + k + 1 - (a + 1) = k by omega, List.getD_cons_succ]
    · simp
    · simp only [show ¬ a + 1 ≤ b by omega, show ¬ a ≤ b by omega, show ¬ a = b by omega, if_false]

/-- Placing bytes keeps the canonical form, whatever the addresses. -/
theorem wf_placeBytes (a : Nat) (bs : List Byte) {m : Memory} (h : m.wf) : (placeBytes a bs m).wf := by
  induction bs generalizing a m with
  | nil => exact h
  | cons c bs ih =>
    rw [placeBytes]; split
    · next ha => exact ih _ (wf_setByte h ha c)
    · exact ih _ h

end Sys2Proof.Machine.Memory
end

