-- ==== Sys2Proof/Laws/State.lean ====
section
/-! SUPPORT. One lemma per field per update of the state, so that no later proof unfolds an update. -/

namespace Sys2Proof.Machine

variable (s : State)

/-! ## `advance` -/

@[simp] theorem State.advance_mem (w : Nat) : (s.advance w).mem = s.mem := rfl
@[simp] theorem State.advance_x (w : Nat) : (s.advance w).x = s.x := rfl
@[simp] theorem State.advance_pc (w : Nat) : (s.advance w).pc = s.pc + w := rfl
@[simp] theorem State.advance_sp (w : Nat) : (s.advance w).sp = s.sp := rfl
@[simp] theorem State.advance_runState (w : Nat) : (s.advance w).runState = s.runState := rfl
@[simp] theorem State.advance_faultCause (w : Nat) : (s.advance w).faultCause = s.faultCause := rfl
@[simp] theorem State.advance_faultPc (w : Nat) : (s.advance w).faultPc = s.faultPc := rfl
@[simp] theorem State.advance_faultInfo (w : Nat) : (s.advance w).faultInfo = s.faultInfo := rfl
@[simp] theorem State.advance_out (w : Nat) : (s.advance w).out = s.out := rfl

/-! ## `emit` -/

@[simp] theorem State.emit_mem (v : Byte) : (s.emit v).mem = s.mem := rfl
@[simp] theorem State.emit_x (v : Byte) : (s.emit v).x = s.x := rfl
@[simp] theorem State.emit_pc (v : Byte) : (s.emit v).pc = s.pc := rfl
@[simp] theorem State.emit_sp (v : Byte) : (s.emit v).sp = s.sp := rfl
@[simp] theorem State.emit_runState (v : Byte) : (s.emit v).runState = s.runState := rfl
@[simp] theorem State.emit_faultCause (v : Byte) : (s.emit v).faultCause = s.faultCause := rfl
@[simp] theorem State.emit_faultPc (v : Byte) : (s.emit v).faultPc = s.faultPc := rfl
@[simp] theorem State.emit_faultInfo (v : Byte) : (s.emit v).faultInfo = s.faultInfo := rfl
@[simp] theorem State.emit_out (v : Byte) : (s.emit v).out = s.out ++ [v] := rfl

/-! ## `writeReg` -/

@[simp] theorem State.writeReg_mem (i : RegIndex) (v : Byte) : (s.writeReg i v).mem = s.mem := rfl
@[simp] theorem State.writeReg_x (i : RegIndex) (v : Byte) : (s.writeReg i v).x = s.x.set i v := rfl
@[simp] theorem State.writeReg_pc (i : RegIndex) (v : Byte) : (s.writeReg i v).pc = s.pc := rfl
@[simp] theorem State.writeReg_sp (i : RegIndex) (v : Byte) : (s.writeReg i v).sp = s.sp := rfl
@[simp] theorem State.writeReg_runState (i : RegIndex) (v : Byte) :
    (s.writeReg i v).runState = s.runState := rfl
@[simp] theorem State.writeReg_faultCause (i : RegIndex) (v : Byte) :
    (s.writeReg i v).faultCause = s.faultCause := rfl
@[simp] theorem State.writeReg_faultPc (i : RegIndex) (v : Byte) :
    (s.writeReg i v).faultPc = s.faultPc := rfl
@[simp] theorem State.writeReg_faultInfo (i : RegIndex) (v : Byte) :
    (s.writeReg i v).faultInfo = s.faultInfo := rfl
@[simp] theorem State.writeReg_out (i : RegIndex) (v : Byte) : (s.writeReg i v).out = s.out := rfl

/-- A write is seen by a read of the same register and by no other (spec/10_state.md R23). -/
theorem State.readReg_writeReg (i j : RegIndex) (v : Byte) :
    (s.writeReg i v).readReg j = if i = j then v else s.readReg j := by
  simp [State.readReg, Vector.getElem_set, Fin.ext_iff]

/-! ## `takeFault` -/

@[simp] theorem State.takeFault_mem (e : Trap) : (s.takeFault e).mem = s.mem := rfl
@[simp] theorem State.takeFault_x (e : Trap) : (s.takeFault e).x = s.x := rfl
@[simp] theorem State.takeFault_pc (e : Trap) : (s.takeFault e).pc = s.pc := rfl
@[simp] theorem State.takeFault_sp (e : Trap) : (s.takeFault e).sp = s.sp := rfl
@[simp] theorem State.takeFault_runState (e : Trap) : (s.takeFault e).runState = .faulted := rfl
@[simp] theorem State.takeFault_faultCause (e : Trap) : (s.takeFault e).faultCause = e.cause := rfl
@[simp] theorem State.takeFault_faultPc (e : Trap) : (s.takeFault e).faultPc = s.pc := rfl
@[simp] theorem State.takeFault_faultInfo (e : Trap) : (s.takeFault e).faultInfo = e.info := rfl
@[simp] theorem State.takeFault_out (e : Trap) : (s.takeFault e).out = s.out := rfl

/-! ## `conclude` and `reset` -/

@[simp] theorem conclude_ok (t : State) : conclude s (.ok t) = .next t := rfl
@[simp] theorem conclude_error (e : Trap) : conclude s (.error e) = .next (s.takeFault e) := rfl

@[simp] theorem State.reset_mem : State.reset.mem = [] := rfl
@[simp] theorem State.reset_pc : State.reset.pc = 0 := rfl
@[simp] theorem State.reset_sp : State.reset.sp = 244 := rfl
@[simp] theorem State.reset_runState : State.reset.runState = .running := rfl
@[simp] theorem State.reset_out : State.reset.out = [] := rfl

end Sys2Proof.Machine
end

