-- ==== Sys2Proof/Laws/Exec.lean ====
section
/-! SUPPORT. One spec lemma per operand check and per instruction: where it completes and with what,
and everything it can do when it answers a next state. -/

namespace Sys2Proof.Machine

/-! ## The operand check -/

theorem checkReg_ok {r : Byte} (h : r.toNat < Config.numRegs) : checkReg r = .ok ⟨r.toNat, h⟩ := by
  rw [checkReg, dif_pos h]

theorem checkReg_bad {r : Byte} (h : ¬ r.toNat < Config.numRegs) :
    checkReg r = .error (.invalidRegister r) := by
  rw [checkReg, dif_neg h]

/-! ## The ALU -/

/-- ADD is the addition of bytes (spec/43_alu.md R131). -/
theorem alu_add_eq (p q : Byte) : alu .add p q = p + q := by
  apply BitVec.eq_of_toNat_eq; simp [alu, BitVec.toNat_add]

/-- MUL is the multiplication of bytes (spec/43_alu.md R132). -/
theorem alu_mul_eq (p q : Byte) : alu .mul p q = p * q := by
  apply BitVec.eq_of_toNat_eq; simp [alu, BitVec.toNat_mul]

/-! ## Binding in a rule -/

@[simp] theorem bind_ok {α β : Type} (a : α) (f : α → Except Trap β) : (Except.ok a >>= f) = f a := rfl

@[simp] theorem bind_error {α β : Type} (e : Trap) (f : α → Except Trap β) :
    ((Except.error e : Except Trap α) >>= f) = .error e := rfl

@[simp] theorem pure_eq_ok {α : Type} (a : α) : (pure a : Except Trap α) = .ok a := rfl

/-- Every rule concludes in a next state. -/
theorem conclude_next (s : State) (r : Except Trap State) : ∃ t, conclude s r = .next t := by
  cases r <;> simp

/-! ## The instructions' rules -/

theorem execHalt_eq (s : State) : execHalt s = .next { s with runState := .halted } := rfl

theorem execLoadImmediate_ok (s : State) {r : Byte} (imm : Byte) (h : r.toNat < Config.numRegs) :
    execLoadImmediate r imm s = .next ((s.writeReg ⟨r.toNat, h⟩ imm).advance 3) := by
  simp [execLoadImmediate, checkReg_ok h, immediate]

theorem execLoadImmediate_bad (s : State) {r : Byte} (imm : Byte) (h : ¬ r.toNat < Config.numRegs) :
    execLoadImmediate r imm s = .next (s.takeFault (.invalidRegister r)) := by
  simp [execLoadImmediate, checkReg_bad h]

theorem execPrint_ok (s : State) {r : Byte} (h : r.toNat < Config.numRegs) :
    execPrint r s = .next ((s.emit (s.readReg ⟨r.toNat, h⟩)).advance 2) := by
  simp [execPrint, checkReg_ok h]

theorem execPrint_bad (s : State) {r : Byte} (h : ¬ r.toNat < Config.numRegs) :
    execPrint r s = .next (s.takeFault (.invalidRegister r)) := by
  simp [execPrint, checkReg_bad h]

theorem execMultiply_ok (s : State) {a b : Byte} (ha : a.toNat < Config.numRegs)
    (hb : b.toNat < Config.numRegs) :
    execMultiply a b s = .next ((s.writeReg ⟨a.toNat, ha⟩
      (alu .mul (s.readReg ⟨a.toNat, ha⟩) (s.readReg ⟨b.toNat, hb⟩))).advance 3) := by
  simp [execMultiply, checkReg_ok ha, checkReg_ok hb]

theorem execMultiply_bad_a (s : State) {a : Byte} (b : Byte) (ha : ¬ a.toNat < Config.numRegs) :
    execMultiply a b s = .next (s.takeFault (.invalidRegister a)) := by
  simp [execMultiply, checkReg_bad ha]

theorem execMultiply_bad_b (s : State) {a b : Byte} (ha : a.toNat < Config.numRegs)
    (hb : ¬ b.toNat < Config.numRegs) :
    execMultiply a b s = .next (s.takeFault (.invalidRegister b)) := by
  simp [execMultiply, checkReg_ok ha, checkReg_bad hb]

theorem execPush_ok (s : State) {r : Byte} (h : r.toNat < Config.numRegs)
    (hs : 0 ≤ s.sp - 1 ∧ s.sp - 1 ≤ 255) :
    execPush r s = .next (State.advance
      { s with mem := s.mem.setByte (s.sp - 1).toNat (s.readReg ⟨r.toNat, h⟩), sp := s.sp - 1 } 2) := by
  simp [execPush, pushAddr, checkReg_ok h, Memory.write_inside s.mem hs]

theorem execPush_bad (s : State) {r : Byte} (h : ¬ r.toNat < Config.numRegs) :
    execPush r s = .next (s.takeFault (.invalidRegister r)) := by
  simp [execPush, checkReg_bad h]

theorem execPush_outside (s : State) {r : Byte} (h : r.toNat < Config.numRegs)
    (hs : s.sp - 1 < 0 ∨ 255 < s.sp - 1) :
    execPush r s = .next (s.takeFault (.outOfBounds (s.sp - 1))) := by
  simp [execPush, pushAddr, checkReg_ok h, Memory.write_outside s.mem hs]

theorem execPop_ok (s : State) {r : Byte} (h : r.toNat < Config.numRegs) (hs : 0 ≤ s.sp ∧ s.sp ≤ 254) :
    execPop r s = .next (State.advance
      { s.writeReg ⟨r.toNat, h⟩ (s.mem.byteAt s.sp.toNat) with sp := s.sp + 1 } 2) := by
  have hn : ¬ 255 < s.sp + 1 := by omega
  simp [execPop, popAddr, popSp, checkReg_ok h, Memory.read_inside s.mem (addr := s.sp) (by omega), hn]

theorem execPop_bad (s : State) {r : Byte} (h : ¬ r.toNat < Config.numRegs) :
    execPop r s = .next (s.takeFault (.invalidRegister r)) := by
  simp [execPop, checkReg_bad h]

theorem execPop_top (s : State) {r : Byte} (h : r.toNat < Config.numRegs) (hs : s.sp = 255) :
    execPop r s = .next (s.takeFault (.outOfBounds 256)) := by
  simp [execPop, popAddr, popSp, checkReg_ok h, hs, Memory.read_inside s.mem (addr := 255) (by omega)]

theorem execPop_outside (s : State) {r : Byte} (h : r.toNat < Config.numRegs)
    (hs : s.sp < 0 ∨ 255 < s.sp) :
    execPop r s = .next (s.takeFault (.outOfBounds s.sp)) := by
  simp [execPop, popAddr, checkReg_ok h, Memory.read_outside s.mem hs]

/-! ## Everything an instruction can do -/

/-- The effect an instruction has when it raises nothing: the operands and the stack pointer that let
it complete, and the state it then leaves. -/
inductive Effect (s : State) : Instr → State → Prop where
  | halt : Effect s .halt { s with runState := .halted }
  | print {r : Byte} (h : r.toNat < Config.numRegs) :
      Effect s (.print r) ((s.emit (s.readReg ⟨r.toNat, h⟩)).advance 2)
  | loadImmediate {r imm : Byte} (h : r.toNat < Config.numRegs) :
      Effect s (.loadImmediate r imm) ((s.writeReg ⟨r.toNat, h⟩ imm).advance 3)
  | multiply {a b : Byte} (ha : a.toNat < Config.numRegs) (hb : b.toNat < Config.numRegs) :
      Effect s (.multiply a b) ((s.writeReg ⟨a.toNat, ha⟩
        (alu .mul (s.readReg ⟨a.toNat, ha⟩) (s.readReg ⟨b.toNat, hb⟩))).advance 3)
  | push {r : Byte} (h : r.toNat < Config.numRegs) (hs : 0 ≤ s.sp - 1 ∧ s.sp - 1 ≤ 255) :
      Effect s (.push r) (State.advance
        { s with mem := s.mem.setByte (s.sp - 1).toNat (s.readReg ⟨r.toNat, h⟩), sp := s.sp - 1 } 2)
  | pop {r : Byte} (h : r.toNat < Config.numRegs) (hs : 0 ≤ s.sp ∧ s.sp ≤ 254) :
      Effect s (.pop r) (State.advance
        { s.writeReg ⟨r.toNat, h⟩ (s.mem.byteAt s.sp.toNat) with sp := s.sp + 1 } 2)

/-- The faults an instruction's own rule can raise, and where. -/
inductive Raises (s : State) : Instr → Trap → Prop where
  | print {r : Byte} (h : ¬ r.toNat < Config.numRegs) : Raises s (.print r) (.invalidRegister r)
  | loadImmediate {r imm : Byte} (h : ¬ r.toNat < Config.numRegs) :
      Raises s (.loadImmediate r imm) (.invalidRegister r)
  | multiplyA {a b : Byte} (h : ¬ a.toNat < Config.numRegs) :
      Raises s (.multiply a b) (.invalidRegister a)
  | multiplyB {a b : Byte} (ha : a.toNat < Config.numRegs) (hb : ¬ b.toNat < Config.numRegs) :
      Raises s (.multiply a b) (.invalidRegister b)
  | push {r : Byte} (h : ¬ r.toNat < Config.numRegs) : Raises s (.push r) (.invalidRegister r)
  | pushOutside {r : Byte} (h : r.toNat < Config.numRegs) (hs : s.sp - 1 < 0 ∨ 255 < s.sp - 1) :
      Raises s (.push r) (.outOfBounds (s.sp - 1))
  | pop {r : Byte} (h : ¬ r.toNat < Config.numRegs) : Raises s (.pop r) (.invalidRegister r)
  | popTop {r : Byte} (h : r.toNat < Config.numRegs) (hs : s.sp = 255) :
      Raises s (.pop r) (.outOfBounds 256)
  | popOutside {r : Byte} (h : r.toNat < Config.numRegs) (hs : s.sp < 0 ∨ 255 < s.sp) :
      Raises s (.pop r) (.outOfBounds s.sp)

/-- `exec` says nothing but its effect and its faults: the one inversion lemma of the instructions. -/
theorem exec_cases (i : Instr) (s : State) :
    (∃ t, exec i s = .next t ∧ Effect s i t) ∨
    (∃ e, exec i s = .next (s.takeFault e) ∧ Raises s i e) := by
  cases i with
  | halt => exact .inl ⟨_, execHalt_eq s, .halt⟩
  | print r =>
    by_cases h : r.toNat < Config.numRegs
    · exact .inl ⟨_, execPrint_ok s h, .print h⟩
    · exact .inr ⟨_, execPrint_bad s h, .print h⟩
  | loadImmediate r imm =>
    by_cases h : r.toNat < Config.numRegs
    · exact .inl ⟨_, execLoadImmediate_ok s imm h, .loadImmediate h⟩
    · exact .inr ⟨_, execLoadImmediate_bad s imm h, .loadImmediate h⟩
  | multiply a b =>
    by_cases ha : a.toNat < Config.numRegs
    · by_cases hb : b.toNat < Config.numRegs
      · exact .inl ⟨_, execMultiply_ok s ha hb, .multiply ha hb⟩
      · exact .inr ⟨_, execMultiply_bad_b s ha hb, .multiplyB ha hb⟩
    · exact .inr ⟨_, execMultiply_bad_a s b ha, .multiplyA ha⟩
  | push r =>
    by_cases h : r.toNat < Config.numRegs
    · by_cases hs : 0 ≤ s.sp - 1 ∧ s.sp - 1 ≤ 255
      · exact .inl ⟨_, execPush_ok s h hs, .push h hs⟩
      · have hs : s.sp - 1 < 0 ∨ 255 < s.sp - 1 := by omega
        exact .inr ⟨_, execPush_outside s h hs, .pushOutside h hs⟩
    · exact .inr ⟨_, execPush_bad s h, .push h⟩
  | pop r =>
    by_cases h : r.toNat < Config.numRegs
    · by_cases hs : 0 ≤ s.sp ∧ s.sp ≤ 254
      · exact .inl ⟨_, execPop_ok s h hs, .pop h hs⟩
      · by_cases ht : s.sp = 255
        · exact .inr ⟨_, execPop_top s h ht, .popTop h ht⟩
        · have hs : s.sp < 0 ∨ 255 < s.sp := by omega
          exact .inr ⟨_, execPop_outside s h hs, .popOutside h hs⟩
    · exact .inr ⟨_, execPop_bad s h, .pop h⟩

end Sys2Proof.Machine
end

