-- ==== Sys2Proof/Laws/PerInstr.lean ====
section
/-! SUPPORT. Statements for all instructions, one lemma per constructor: an instruction's bytes, with
any bytes after them, decode to it, and it has as many bytes as its width (spec/30_encoding.md R64,
R67). -/

namespace Sys2Proof.Laws.RoundTrip

/-- The front of any byte sequence that begins with the instruction's bytes is that instruction, and
the rest begins `width` bytes on. -/
def Statement (i : Instr) : Prop :=
  (encode i).length = i.width ∧ ∀ rest : List Byte, decodeFront (encode i ++ rest) = some (i, rest)

theorem halt : Statement .halt := ⟨rfl, fun rest => by simp [encode, decodeFront, Instr.width]⟩

theorem print (r : Byte) : Statement (.print r) :=
  ⟨rfl, fun rest => by simp [encode, decodeFront, Instr.width]⟩

theorem loadImmediate (r imm : Byte) : Statement (.loadImmediate r imm) :=
  ⟨rfl, fun rest => by simp [encode, decodeFront, Instr.width]⟩

theorem multiply (a b : Byte) : Statement (.multiply a b) :=
  ⟨rfl, fun rest => by simp [encode, decodeFront, Instr.width]⟩

theorem push (r : Byte) : Statement (.push r) :=
  ⟨rfl, fun rest => by simp [encode, decodeFront, Instr.width]⟩

theorem pop (r : Byte) : Statement (.pop r) :=
  ⟨rfl, fun rest => by simp [encode, decodeFront, Instr.width]⟩

end Sys2Proof.Laws.RoundTrip
end

