-- ==== Sys2Proof/Laws/Step.lean ====
section
/-! SUPPORT. The fetch, and everything a step can do. -/

namespace Sys2Proof.Machine

theorem fetch_inside {s : State} (h : s.pc ≤ 253) :
    fetch s = .ok (s.codeByte 0, s.codeByte 1, s.codeByte 2) := by
  have e1 : ((s.pc : Int) + 1).toNat = s.pc + 1 := by omega
  have e2 : ((s.pc : Int) + 2).toNat = s.pc + 2 := by omega
  simp [fetch, Memory.read_inside s.mem (addr := (s.pc : Int)) (by omega),
    Memory.read_inside s.mem (addr := (s.pc : Int) + 1) (by omega),
    Memory.read_inside s.mem (addr := (s.pc : Int) + 2) (by omega), State.codeByte, e1, e2]

/-- Over-fetch: at 254 and 255 the read of address 256 fails, and above that the read of `pc`
(spec/40_loop.md R81, R82). -/
theorem fetch_outside {s : State} (h : 253 < s.pc) :
    fetch s = .error (.outOfBounds (max 256 s.pc : Nat)) := by
  rcases (by omega : s.pc = 254 ∨ s.pc = 255 ∨ 256 ≤ s.pc) with hp | hp | hp
  · simp [fetch, hp, Memory.read_inside s.mem (addr := 254) (by omega),
      Memory.read_inside s.mem (addr := 255) (by omega),
      Memory.read_outside s.mem (addr := 256) (by omega)]
  · simp [fetch, hp, Memory.read_inside s.mem (addr := 255) (by omega),
      Memory.read_outside s.mem (addr := 256) (by omega)]
  · rw [Nat.max_eq_right hp]
    simp [fetch, Memory.read_outside s.mem (addr := (s.pc : Int)) (by omega)]

theorem step_running {s : State} (h : s.runState = .running) : step s = iterate s := by
  rw [step, stepRunning, h]

/-- A step needs RUNNING (spec/40_loop.md R80). -/
theorem running_of_step {s t : State} (h : step s = .next t) : s.runState = .running := by
  cases hr : s.runState <;> simp_all [step, stepRunning]

theorem fetchInstr_inside {s : State} (hp : s.pc ≤ 253) :
    fetchInstr s = recognise (decode (s.codeByte 0) (s.codeByte 1) (s.codeByte 2)) := by
  rw [fetchInstr, fetch_inside hp]; rfl

theorem iterate_known {s : State} {i : Instr} (hp : s.pc ≤ 253)
    (hd : decode (s.codeByte 0) (s.codeByte 1) (s.codeByte 2) = .known i) : iterate s = exec i s := by
  rw [iterate, fetchInstr_inside hp, hd, recognise, runFetched]

theorem iterate_unknown {s : State} {op : Byte} (hp : s.pc ≤ 253)
    (hd : decode (s.codeByte 0) (s.codeByte 1) (s.codeByte 2) = .unknown op) :
    iterate s = .next (s.takeFault (.unrecognizedOpcode op)) := by
  rw [iterate, fetchInstr_inside hp, hd, recognise, runFetched, conclude_error]

theorem iterate_overFetch {s : State} (hp : 253 < s.pc) :
    iterate s = .next (s.takeFault (.outOfBounds (max 256 s.pc : Nat))) := by
  rw [iterate, fetchInstr, fetch_outside hp, bind_error, runFetched, conclude_error]

/-! ## Running -/

@[simp] theorem runFor_zero (s : State) : runFor 0 s = s := rfl

theorem runFor_next {s t : State} (h : step s = .next t) (n : Nat) :
    runFor (n + 1) s = runFor n t := by
  rw [step] at h; rw [runFor, h]

/-- A run that is over stays as it is (spec/41_halt.md R101, spec/60_exceptions.md R177). -/
theorem runFor_ended {s : State} (h : s.runState ≠ .running) (n : Nat) : runFor n s = s := by
  cases n with
  | zero => rfl
  | succ n => rw [runFor, stepRunning]; cases hr : s.runState <;> simp_all

/-- Everything a step of a RUNNING state can do: a fetch fault, an unrecognised opcode, or the decoded
instruction's effect or fault. -/
inductive StepOutcome (s : State) : State → Prop where
  | overFetch (hp : 253 < s.pc) : StepOutcome s (s.takeFault (.outOfBounds (max 256 s.pc : Nat)))
  | unrecognized (hp : s.pc ≤ 253) (ho : s.codeByte 0 ∉ opcodes) :
      StepOutcome s (s.takeFault (.unrecognizedOpcode (s.codeByte 0)))
  | raised {i : Instr} {e : Trap} (hp : s.pc ≤ 253)
      (hd : decode (s.codeByte 0) (s.codeByte 1) (s.codeByte 2) = .known i) (hr : Raises s i e) :
      StepOutcome s (s.takeFault e)
  | completed {i : Instr} {t : State} (hp : s.pc ≤ 253)
      (hd : decode (s.codeByte 0) (s.codeByte 1) (s.codeByte 2) = .known i) (he : Effect s i t) :
      StepOutcome s t

/-- The one inversion lemma of the step. -/
theorem iterate_cases (s : State) : ∃ t, iterate s = .next t ∧ StepOutcome s t := by
  by_cases hp : s.pc ≤ 253
  · cases hd : decode (s.codeByte 0) (s.codeByte 1) (s.codeByte 2) with
    | unknown op =>
      have hop : op = s.codeByte 0 ∧ s.codeByte 0 ∉ opcodes := by
        rcases decode_cases (s.codeByte 0) (s.codeByte 1) (s.codeByte 2) with
          ⟨-, h⟩ | ⟨-, h⟩ | ⟨-, h⟩ | ⟨-, h⟩ | ⟨-, h⟩ | ⟨-, h⟩ | ⟨ho, h⟩ <;> simp_all
      obtain ⟨rfl, ho⟩ := hop
      exact ⟨_, iterate_unknown hp hd, .unrecognized hp ho⟩
    | known i =>
      rcases exec_cases i s with ⟨t, h, he⟩ | ⟨e, h, hr⟩
      · exact ⟨t, (iterate_known hp hd).trans h, .completed hp hd he⟩
      · exact ⟨_, (iterate_known hp hd).trans h, .raised hp hd hr⟩
  · exact ⟨_, iterate_overFetch (by omega), .overFetch (by omega)⟩

/-- What a step that answers a next state did. -/
theorem step_cases {s t : State} (h : step s = .next t) :
    s.runState = .running ∧ StepOutcome s t := by
  have hr := running_of_step h
  rw [step_running hr] at h
  obtain ⟨u, hu, ho⟩ := iterate_cases s
  rw [h] at hu; cases hu
  exact ⟨hr, ho⟩

/-- While RUNNING there is a next state. -/
theorem step_next {s : State} (h : s.runState = .running) : ∃ t, step s = .next t ∧ StepOutcome s t := by
  rw [step_running h]; exact iterate_cases s

/-! ## Runs -/

/-- A property every step keeps holds all along a run: the one induction over runs. -/
theorem runFor_keeps {P : State → Prop} (hs : ∀ s t, P s → step s = .next t → P t) (n : Nat) {s : State}
    (h : P s) : P (runFor n s) := by
  induction n generalizing s with
  | zero => exact h
  | succ n ih =>
    by_cases hr : s.runState = .running
    · obtain ⟨t, ht, -⟩ := step_next hr
      rw [runFor_next ht]; exact ih (hs s t h ht)
    · rw [runFor_ended hr]; exact h

theorem runFor_add (m n : Nat) (s : State) : runFor (m + n) s = runFor n (runFor m s) := by
  induction m generalizing s with
  | zero => simp
  | succ m ih =>
    by_cases hr : s.runState = .running
    · obtain ⟨t, ht, -⟩ := step_next hr
      rw [Nat.succ_add, runFor_next ht, runFor_next ht, ih]
    · rw [runFor_ended hr, runFor_ended hr, runFor_ended hr]

/-- Everything a launch that is not refused gives. -/
theorem launch_cases {p : List Nat} {s : State} (h : launch p = some s) :
    p.length ≤ 256 ∧ (∀ v ∈ p, v < 256) ∧
    s = { State.reset with mem := placeBytes 0 (p.map (BitVec.ofNat 8)) State.reset.mem } := by
  rw [launch] at h
  split at h
  · next hc => cases h; exact ⟨hc.1, hc.2, rfl⟩
  · cases h

/-! ## Lists of instructions, and the operand that spells a register -/

theorem execAll_cons {i : Instr} {s t : State} (h : exec i s = .next t) (is : List Instr) :
    execAll (i :: is) s = execAll is t := by
  rw [execAll, h]

theorem regOperand_toNat (i : RegIndex) : (regOperand i).toNat = i.val := by
  have := i.isLt
  simp only [Config.numRegs] at this
  rw [regOperand, BitVec.toNat_ofNat]; omega

end Sys2Proof.Machine
end

