-- ==== Sys2Proof/Tests/Slice0.lean ====
section
/-! SUPPORT. The model's own tests: what WellFormed refuses, decoding of words written out from the
spec, single steps of spec/95_test_vectors.md (each test names its vector), and a witness for the
hypotheses of every statement that has any. -/

namespace Sys2Proof.Tests

open Sys2Proof Sys2Proof.Machine

/-! ## Small states -/

/-- The reset state with bytes placed at `pc`. -/
def codeAt (pc : Nat) (bytes : List Byte) : State :=
  { State.reset with pc := pc, mem := placeBytes pc bytes [] }

/-- The reset state with bytes placed at `pc` and another stack pointer. -/
def stackAt (sp : Int) (pc : Nat) (bytes : List Byte) : State := { codeAt pc bytes with sp := sp }

/-- What a step's or an instruction's next state shows; nothing if there is no next state. -/
def shows {α : Type} (o : Host.Outcome State Fault Refusal) (f : State → α) : Option α :=
  match o with
  | .next t => some (f t)
  | .fault _ => none
  | .refused _ => none

/-- The fault record of a state, with its run state. -/
def record (t : State) : RunState × FaultCause × Nat × Int :=
  (t.runState, t.faultCause, t.faultPc, t.faultInfo)

theorem exists_next {o : Host.Outcome State Fault Refusal} (P : State → Bool)
    (h : shows o P = some true) : ∃ t, o = .next t ∧ P t = true := by
  cases o with
  | next t => exact ⟨t, rfl, by simpa [shows] using h⟩
  | fault => cases h
  | refused => cases h

/-! ## WellFormed -/

theorem test_wellFormed_accepts_r7 : (Instr.loadImmediate 7 255).wellFormed = true := by decide
theorem test_wellFormed_refuses_print_r8 : (Instr.print 8).wellFormed = false := by decide
theorem test_wellFormed_refuses_loadImmediate_r255 : (Instr.loadImmediate 255 1).wellFormed = false := by decide
theorem test_wellFormed_refuses_multiply_a8 : (Instr.multiply 8 0).wellFormed = false := by decide
theorem test_wellFormed_refuses_multiply_b9 : (Instr.multiply 0 9).wellFormed = false := by decide
theorem test_wellFormed_refuses_push_r9 : (Instr.push 9).wellFormed = false := by decide
theorem test_wellFormed_refuses_pop_r8 : (Instr.pop 8).wellFormed = false := by decide

/-! ## Decoding, from words written out bit by bit (spec/30_encoding.md R61, R64) -/

theorem test_decode_halt : decode 0b00000001 0b00001001 0b00001001 = .known .halt := by decide
theorem test_decode_print : decode 0b01000111 0b00000011 0b11001000 = .known (.print 3) := by decide
theorem test_decode_loadImmediate :
    decode 0b10000010 0b00000010 0b11111111 = .known (.loadImmediate 2 255) := by decide
theorem test_decode_multiply : decode 0b10100010 0b00000100 0b00000101 = .known (.multiply 4 5) := by decide
theorem test_decode_push : decode 0b01000101 0b00000110 0b00000000 = .known (.push 6) := by decide
theorem test_decode_pop : decode 0b01000110 0b00000111 0b00000000 = .known (.pop 7) := by decide
/-- 160, the LS-8's ADD, is no instruction here (spec/30_encoding.md R66). -/
theorem test_decode_rejects_160 : decode 0b10100000 0 1 = .unknown 160 := by decide
/-- The first byte of a table word lies in its lowest bits (spec/opcode_table.json). -/
theorem test_decodeTableWord_multiply : decodeTableWord 24 0x0504A2 = some (.multiply 4 5) := by decide
/-- Bits above `nbits` are 0. -/
theorem test_decodeTableWord_masks : decodeTableWord 8 0x0547 = some (.print 0) := by decide
theorem test_decodeTableWord_rejects : decodeTableWord 8 0x00 = none := by decide

/-! ## Single steps (spec/95_test_vectors.md) -/

/-- V-F1. -/
theorem test_step_empty_memory :
    shows (step State.reset) record = some (.faulted, .unrecognizedOpcode, 0, 0) := by decide
/-- V-F5. -/
theorem test_step_pc_256 : shows (step (codeAt 256 [])) record = some (.faulted, .outOfBounds, 256, 256) := by
  decide
/-- V-F6. -/
theorem test_step_fetch_fault_before_decode :
    shows (step (codeAt 254 [160, 0])) record = some (.faulted, .outOfBounds, 254, 256) := by decide
/-- V-H2. -/
theorem test_halt_at_253 :
    shows (step (codeAt 253 [1])) (fun t => (t.runState, t.pc)) = some (.halted, 253) := by decide
/-- V-H4. -/
theorem test_halt_at_255_faults :
    shows (step (codeAt 255 [1])) record = some (.faulted, .outOfBounds, 255, 256) := by decide
/-- V-L2. -/
theorem test_loadImmediate_r7 :
    shows (step (codeAt 0 [130, 7, 255])) (fun t => (t.readReg 7, t.pc)) = some (255, 3) := by decide
/-- V-L4. -/
theorem test_loadImmediate_r8 :
    shows (step (codeAt 0 [130, 8, 1])) record = some (.faulted, .invalidRegister, 0, 8) := by decide
/-- V-P1. -/
theorem test_print_r3 :
    shows (step ((codeAt 0 [71, 3]).writeReg 3 200)) (fun t => (t.out, t.pc)) = some ([200], 2) := by decide
/-- V-P4. -/
theorem test_print_r8_emits_nothing :
    shows (step (codeAt 0 [71, 8])) (fun t => (record t, t.out)) =
      some ((.faulted, .invalidRegister, 0, 8), []) := by decide
/-- V-M3. -/
theorem test_multiply_same_register :
    shows (step ((codeAt 0 [162, 2, 2]).writeReg 2 255)) (fun t => (t.readReg 2, t.pc)) = some (1, 3) := by decide
/-- V-M9. -/
theorem test_multiply_checks_a_first :
    shows (step (codeAt 0 [162, 8, 9])) record = some (.faulted, .invalidRegister, 0, 8) := by decide
/-- V-S2. -/
theorem test_push_to_address_0 :
    shows (step ((stackAt 1 2 [69, 2]).writeReg 2 9)) (fun t => (t.mem.byteAt 0, t.sp, t.pc)) =
      some (9, 0, 4) := by decide
/-- V-S4. -/
theorem test_push_register_check_first :
    shows (step (stackAt 0 10 [69, 9])) record = some (.faulted, .invalidRegister, 10, 9) := by decide
/-- V-S8. -/
theorem test_pop_at_254 :
    shows (step { stackAt 254 0 [70, 1] with mem := placeBytes 254 [33] (placeBytes 0 [70, 1] []) })
      (fun t => (t.readReg 1, t.sp, t.mem.byteAt 254)) = some (33, 255, 33) := by decide
/-- V-S9. -/
theorem test_pop_at_255_faults :
    shows (step (stackAt 255 0 [70, 1])) (fun t => (record t, t.sp)) =
      some ((.faulted, .outOfBounds, 0, 256), 255) := by decide
/-- V-A8: ADD, which no opcode reaches. -/
theorem test_alu_add_wraps : alu .add 200 100 = 44 := by decide
/-- V-A4. -/
theorem test_alu_mul_wraps : alu .mul 200 200 = 64 := by decide
/-- V-H5: no step. -/
theorem test_no_step_from_halted :
    shows (step { State.reset with runState := .halted }) (fun t => t.pc) = none := by decide
/-- The host's placing of a word: `MUL r4, r5` after reset. -/
theorem test_withFetchWord :
    shows (step (State.reset.withFetchWord 24 0x0504A2)) (fun t => t.pc) = some 3 := by decide
/-- Writing the reset byte takes the cell off the list, so that equal memories are equal data. -/
theorem test_memory_canonical : (placeBytes 3 [7, 0, 9] []).setByte 3 0 = [(5, 9)] := by decide

/-! ## Witnesses: the hypotheses of the statements can be met, clause by clause, at their boundaries -/

theorem witness_ResetGivesTheStatedState :
    ({ State.reset with runState := .halted } : State).runState ≠ .running := by decide

theorem witness_StepExistsExactlyWhileRunning : State.reset.runState = .running ∧
    ({ State.reset with runState := .faulted } : State).runState ≠ .running := by decide

theorem witness_MemoryReadIsBoundsChecked :
    ((-1 : Int) < 0 ∧ (255 : Int) < 256) ∧ (0 ≤ (0 : Int) ∧ (255 : Int) ≤ 255) := by decide

theorem witness_MemoryWriteReplacesOneCell :
    ((-1 : Int) < 0 ∧ (255 : Int) < 256) ∧ (0 ≤ (0 : Int) ∧ (255 : Int) ≤ 255) ∧
    (1 : Nat) ≠ (0 : Int).toNat ∧ Memory.wf [(255, 1)] := by decide

theorem witness_MemoryWritesAreIdempotentOverwrites :
    Memory.write [] 255 7 = .ok [(255, 7)] ∧ (0 : Int) ≠ 255 := ⟨rfl, by decide⟩

theorem witness_CanonicalMemoriesWithEqualBytesAreEqual :
    Memory.wf [(0, 1), (255, 2)] ∧ ∀ a : Nat, a < 256 →
      Memory.byteAt [(0, 1), (255, 2)] a = Memory.byteAt [(0, 1), (255, 2)] a := ⟨by decide, fun _ _ => rfl⟩

theorem witness_DispatchSelectsOneOfSevenArms : (72 : Byte) ≠ 1 ∧ (72 : Byte) ≠ 71 ∧ (72 : Byte) ≠ 130 ∧
    (72 : Byte) ≠ 162 ∧ (72 : Byte) ≠ 69 ∧ (72 : Byte) ≠ 70 := by decide

theorem witness_UnusedOperandBytesNeverMatter :
    (71 : Byte) = 71 ∨ (71 : Byte) = 69 ∨ (71 : Byte) = 70 := by decide

theorem witness_EachInstructionHasOneEncoding : decode 70 255 0 = .known (.pop 255) := by decide

theorem witness_RegisterOperandsAreChecked :
    (7 : Byte).toNat < 8 ∧ 7 < (8 : Byte).toNat ∧ 7 < (255 : Byte).toNat := by decide

theorem witness_LoadImmediateCompletes : (0 : Byte).toNat < 8 ∧ (7 : Byte).toNat < 8 := by decide
theorem witness_PrintCompletes : (0 : Byte).toNat < 8 ∧ (7 : Byte).toNat < 8 := by decide
theorem witness_MultiplyCompletes : (7 : Byte).toNat < 8 ∧ (0 : Byte).toNat < 8 := by decide

theorem witness_PushCompletes : (7 : Byte).toNat < 8 ∧
    (0 ≤ (stackAt 1 0 []).sp - 1 ∧ (stackAt 1 0 []).sp - 1 ≤ 255) ∧
    (0 ≤ (stackAt 256 0 []).sp - 1 ∧ (stackAt 256 0 []).sp - 1 ≤ 255) := by decide

theorem witness_PopCompletes : (7 : Byte).toNat < 8 ∧
    (0 ≤ (stackAt 0 0 []).sp ∧ (stackAt 0 0 []).sp ≤ 254) ∧
    (0 ≤ (stackAt 254 0 []).sp ∧ (stackAt 254 0 []).sp ≤ 254) := by decide

theorem witness_HaltRule :
    (let s := codeAt 253 [1]; s.runState = .running ∧ s.codeByte 0 = 1 ∧ s.pc ≤ 253) ∧
    (let s := codeAt 254 [1]; s.runState = .running ∧ s.codeByte 0 = 1 ∧ s.pc = 254) ∧
    (let s := codeAt 255 [1]; s.runState = .running ∧ s.codeByte 0 = 1 ∧ s.pc = 255) := by decide

theorem witness_LoadImmediateRule :
    (let s := codeAt 253 [130, 7, 255]; s.runState = .running ∧ s.codeByte 0 = 130 ∧ s.pc ≤ 253 ∧
      (s.codeByte 1).toNat < 8) ∧
    (let s := codeAt 0 [130, 8, 1]; s.runState = .running ∧ s.codeByte 0 = 130 ∧ s.pc ≤ 253 ∧
      7 < (s.codeByte 1).toNat) ∧
    (let s := codeAt 254 [130]; s.runState = .running ∧ s.codeByte 0 = 130 ∧ 254 ≤ s.pc) := by decide

theorem witness_PrintRule :
    (let s := codeAt 253 [71, 7]; s.runState = .running ∧ s.codeByte 0 = 71 ∧ s.pc ≤ 253 ∧
      (s.codeByte 1).toNat < 8) ∧
    (let s := codeAt 0 [71, 8]; s.runState = .running ∧ s.codeByte 0 = 71 ∧ s.pc ≤ 253 ∧
      7 < (s.codeByte 1).toNat) ∧
    (let s := codeAt 254 [71]; s.runState = .running ∧ s.codeByte 0 = 71 ∧ 254 ≤ s.pc) := by decide

theorem witness_MultiplyRule :
    (let s := codeAt 253 [162, 7, 0]; s.runState = .running ∧ s.codeByte 0 = 162 ∧ s.pc ≤ 253 ∧
      (s.codeByte 1).toNat < 8 ∧ (s.codeByte 2).toNat < 8) ∧
    (let s := codeAt 0 [162, 8, 9]; s.runState = .running ∧ s.codeByte 0 = 162 ∧ s.pc ≤ 253 ∧
      7 < (s.codeByte 1).toNat) ∧
    (let s := codeAt 0 [162, 7, 8]; s.runState = .running ∧ s.codeByte 0 = 162 ∧ s.pc ≤ 253 ∧
      (s.codeByte 1).toNat < 8 ∧ 7 < (s.codeByte 2).toNat) ∧
    (let s := codeAt 254 [162]; s.runState = .running ∧ s.codeByte 0 = 162 ∧ 254 ≤ s.pc) := by decide

theorem witness_PushRule :
    (let s := stackAt 1 253 [69, 7]; s.runState = .running ∧ s.codeByte 0 = 69 ∧ 0 ≤ s.sp ∧ s.sp ≤ 255 ∧
      s.pc ≤ 253 ∧ (s.codeByte 1).toNat < 8 ∧ 1 ≤ s.sp) ∧
    (let s := stackAt 0 0 [69, 8]; s.runState = .running ∧ s.codeByte 0 = 69 ∧ 0 ≤ s.sp ∧ s.sp ≤ 255 ∧
      s.pc ≤ 253 ∧ 7 < (s.codeByte 1).toNat) ∧
    (let s := stackAt 0 0 [69, 7]; s.runState = .running ∧ s.codeByte 0 = 69 ∧ 0 ≤ s.sp ∧ s.sp ≤ 255 ∧
      s.pc ≤ 253 ∧ (s.codeByte 1).toNat < 8 ∧ s.sp = 0) ∧
    (let s := stackAt 255 254 [69]; s.runState = .running ∧ s.codeByte 0 = 69 ∧ 0 ≤ s.sp ∧ s.sp ≤ 255 ∧
      254 ≤ s.pc) := by decide

theorem witness_PopRule :
    (let s := stackAt 254 253 [70, 7]; s.runState = .running ∧ s.codeByte 0 = 70 ∧ 0 ≤ s.sp ∧ s.sp ≤ 255 ∧
      s.pc ≤ 253 ∧ (s.codeByte 1).toNat < 8 ∧ s.sp ≤ 254) ∧
    (let s := stackAt 255 0 [70, 8]; s.runState = .running ∧ s.codeByte 0 = 70 ∧ 0 ≤ s.sp ∧ s.sp ≤ 255 ∧
      s.pc ≤ 253 ∧ 7 < (s.codeByte 1).toNat) ∧
    (let s := stackAt 255 0 [70, 7]; s.runState = .running ∧ s.codeByte 0 = 70 ∧ 0 ≤ s.sp ∧ s.sp ≤ 255 ∧
      s.pc ≤ 253 ∧ (s.codeByte 1).toNat < 8 ∧ s.sp = 255) ∧
    (let s := stackAt 0 254 [70]; s.runState = .running ∧ s.codeByte 0 = 70 ∧ 0 ≤ s.sp ∧ s.sp ≤ 255 ∧
      254 ≤ s.pc) := by decide

theorem witness_OverFetchFaults :
    ((codeAt 254 []).runState = .running ∧ (codeAt 254 []).pc = 254) ∧
    ((codeAt 255 []).runState = .running ∧ (codeAt 255 []).pc = 255) ∧
    ((codeAt 256 []).runState = .running ∧ 255 < (codeAt 256 []).pc) ∧
    ∃ t, step (codeAt 253 [71]) = .next t ∧ decide (t.runState ≠ .faulted) = true :=
  ⟨by decide, by decide, by decide, exists_next _ (by decide)⟩

theorem witness_UnrecognizedOpcodeFaults :
    ((codeAt 253 [72]).runState = .running ∧ (codeAt 253 [72]).codeByte 0 ∉ opcodes ∧
      (codeAt 253 [72]).pc ≤ 253) ∧
    ((codeAt 254 [72]).runState = .running ∧ (codeAt 254 [72]).codeByte 0 ∉ opcodes ∧
      254 ≤ (codeAt 254 [72]).pc) := by decide

theorem witness_FaultsArePreciseAndTerminal :
    ∃ t, step (stackAt 0 10 [69]) = .next t ∧ decide (t.runState = .faulted) = true :=
  exists_next _ (by decide)

/-- Every line of the priority list, and none of them, at states with `sp` at an end of its range. -/
theorem witness_FirstFaultInPriorityOrder :
    (codeAt 256 []).firstFault = some (.outOfBounds, 256) ∧
    (codeAt 255 [160]).firstFault = some (.outOfBounds, 256) ∧
    (codeAt 254 [160]).firstFault = some (.outOfBounds, 256) ∧
    (codeAt 0 [200, 9, 9]).firstFault = some (.unrecognizedOpcode, 200) ∧
    (stackAt 0 0 [69, 9]).firstFault = some (.invalidRegister, 9) ∧
    (codeAt 0 [162, 0, 9]).firstFault = some (.invalidRegister, 9) ∧
    (stackAt 0 0 [69, 7]).firstFault = some (.outOfBounds, -1) ∧
    (stackAt 255 0 [70, 7]).firstFault = some (.outOfBounds, 256) ∧
    (stackAt 255 0 [69, 7]).firstFault = none ∧
    0 ≤ (stackAt 0 0 []).sp ∧ (stackAt 255 0 []).sp ≤ 255 ∧ (stackAt 0 0 []).runState = .running := by decide

theorem witness_PcAdvancesByWidth :
    (∃ t, step (codeAt 0 [130, 0, 8]) = .next t ∧ decide (t.runState = .running) = true) ∧
    (∃ t, step (codeAt 253 [70]) = .next t ∧ decide (t.runState = .running) = true) ∧
    (∃ t, step (codeAt 253 [1]) = .next t ∧ decide (t.runState = .halted) = true) ∧
    (∃ t, step (codeAt 254 [1]) = .next t ∧ decide (t.runState = .faulted) = true) :=
  ⟨exists_next _ (by decide), exists_next _ (by decide), exists_next _ (by decide), exists_next _ (by decide)⟩

theorem witness_OnlyPrintAppendsToOutput :
    (∃ t, step (codeAt 0 [71, 7]) = .next t ∧ decide (t.out = [0]) = true) ∧
    (∃ t, step (codeAt 0 [71, 8]) = .next t ∧ decide (t.out = []) = true) :=
  ⟨exists_next _ (by decide), exists_next _ (by decide)⟩

theorem witness_OnlyPushAndPopMoveSp :
    (∃ t, step (stackAt 1 0 [69]) = .next t ∧ decide (t.sp ≠ 1) = true) ∧
    (∃ t, step (stackAt 254 0 [70]) = .next t ∧ decide (t.sp ≠ 254) = true) :=
  ⟨exists_next _ (by decide), exists_next _ (by decide)⟩

theorem witness_OnlyPushWritesMemory :
    ∃ t, step ((codeAt 0 [69, 7]).writeReg 7 5) = .next t ∧
      decide (t.mem.byteAt 243 ≠ ((codeAt 0 [69, 7]).writeReg 7 5).mem.byteAt 243) = true :=
  exists_next _ (by decide)

theorem witness_OnlyThreeInstructionsWriteRegisters :
    ∃ t, step (codeAt 0 [130, 7, 9]) = .next t ∧
      decide (t.readReg 7 ≠ (codeAt 0 [130, 7, 9]).readReg 7) = true := exists_next _ (by decide)

theorem witness_OnlyHaltHalts :
    (∃ t, step (codeAt 253 [1]) = .next t ∧ decide (t.runState = .halted) = true) ∧
    (∃ t, step (codeAt 254 [1]) = .next t ∧ decide (t.runState ≠ .halted) = true) :=
  ⟨exists_next _ (by decide), exists_next _ (by decide)⟩

theorem witness_RegisterInstructionsFrame :
    (∃ t, exec .halt State.reset = .next t ∧ true = true) ∧
    (∃ t, exec (.print 7) State.reset = .next t ∧ true = true) ∧
    (∃ t, exec (.print 8) State.reset = .next t ∧ true = true) ∧
    (∃ t, exec (.loadImmediate 7 1) State.reset = .next t ∧ true = true) ∧
    (∃ t, exec (.multiply 7 7) State.reset = .next t ∧ true = true) ∧
    (∃ t, exec (.multiply 7 8) State.reset = .next t ∧ true = true) ∧
    (7 : Byte).toNat < 8 ∧ 7 < (8 : Byte).toNat :=
  ⟨exists_next (fun _ => true) (by decide), exists_next (fun _ => true) (by decide),
    exists_next (fun _ => true) (by decide), exists_next (fun _ => true) (by decide),
    exists_next (fun _ => true) (by decide), exists_next (fun _ => true) (by decide), by decide⟩

theorem witness_StackInstructionsFrame :
    (∃ t, exec (.push 7) (stackAt 1 0 []) = .next t ∧ decide (t.sp = 0) = true) ∧
    (∃ t, exec (.push 7) (stackAt 0 0 []) = .next t ∧ decide (t.sp = 0) = true) ∧
    (∃ t, exec (.pop 7) (stackAt 254 0 []) = .next t ∧ decide (t.sp = 255) = true) ∧
    (∃ t, exec (.pop 7) (stackAt 255 0 []) = .next t ∧ decide (t.sp = 255) = true) ∧
    pushAddr (stackAt 1 0 []) = 0 :=
  ⟨exists_next _ (by decide), exists_next _ (by decide), exists_next _ (by decide),
    exists_next _ (by decide), by decide⟩

/-- A POP at 0, and a memory that differs from its state's at an address it does not read. -/
theorem witness_StepReadsOnlyItsWindow :
    (codeAt 0 [70, 1]).runState = .running ∧
    (∀ k, k < 3 → (placeBytes 100 [9] (codeAt 0 [70, 1]).mem).byteAt ((codeAt 0 [70, 1]).pc + k) =
      (codeAt 0 [70, 1]).mem.byteAt ((codeAt 0 [70, 1]).pc + k)) ∧
    (codeAt 0 [70, 1]).codeByte 0 = 70 ∧
    (placeBytes 100 [9] (codeAt 0 [70, 1]).mem).byteAt (codeAt 0 [70, 1]).sp.toNat =
      (codeAt 0 [70, 1]).mem.byteAt (codeAt 0 [70, 1]).sp.toNat ∧
    (placeBytes 100 [9] (codeAt 0 [70, 1]).mem).byteAt 100 ≠ (codeAt 0 [70, 1]).mem.byteAt 100 := by decide

/-- A PUSH at 253 with `sp` = 1: the invariant holds at the ends of its ranges, and a step follows. -/
theorem witness_StepKeepsTheInvariant :
    (stackAt 1 253 [69, 7]).Inv ∧
    ∃ t, step (stackAt 1 253 [69, 7]) = .next t ∧ decide (t.pc = 255 ∧ t.sp = 0) = true :=
  ⟨⟨by decide, by decide, by decide, by decide, fun h => by cases h⟩, exists_next _ (by decide)⟩

/-- A PUSH at 252 with `sp` = 118, where the bound is met exactly, and a step follows. -/
theorem witness_StepKeepsTheStackAboveZero :
    (stackAt 118 252 [69, 7]).StackBound ∧
    ∃ t, step (stackAt 118 252 [69, 7]) = .next t ∧ decide (t.pc = 254 ∧ t.sp = 117) = true :=
  ⟨⟨by decide, by decide, by decide⟩, exists_next _ (by decide)⟩

theorem witness_LaunchWritesTheProgram :
    (List.replicate 256 255).length ≤ 256 ∧ ∀ v ∈ List.replicate 256 255, v ≤ 255 :=
  ⟨Nat.le_of_eq List.length_replicate, fun _ h => Nat.le_of_eq (List.eq_of_mem_replicate h)⟩

theorem witness_LaunchRefusesOtherInput :
    256 < (List.replicate 257 0).length ∧ (∃ v ∈ [256], 255 < v) :=
  ⟨Nat.lt_of_lt_of_eq (by decide : 256 < 257) List.length_replicate.symm, by decide⟩

theorem witness_LaunchedRunsKeepTheInvariant : ∃ s, launch [255] = some s := ⟨_, rfl⟩
theorem witness_LaunchedRunsNeverOverflowTheStack : ∃ s, launch [69, 0, 1] = some s := ⟨_, rfl⟩

theorem witness_PushThenPopRoundTrips : (1 ≤ (stackAt 1 0 []).sp ∧ (stackAt 1 0 []).sp ≤ 255) ∧
    (1 ≤ (stackAt 255 0 []).sp ∧ (stackAt 255 0 []).sp ≤ 255) := by decide

theorem witness_PopsReturnPushesInReverse :
    ([0, 7] : List RegIndex).length = ([7, 7] : List RegIndex).length ∧
    ((([0, 7] : List RegIndex).length : Int) ≤ (stackAt 2 0 []).sp ∧ (stackAt 2 0 []).sp ≤ 255) := by decide

/-- The pushed byte lies in the window of the next fetch, as in program P5. -/
theorem witness_PushIsSeenByTheNextFetch :
    ((codeAt 240 [69, 0]).codeByte 1).toNat < 8 ∧ (codeAt 240 [69, 0]).codeByte 0 = 69 ∧
    ∃ t, step (codeAt 240 [69, 0]) = .next t ∧
      decide (t.runState = .running ∧ t.pc ≤ 253 ∧ ((t.pc + 1 : Nat) : Int) = (codeAt 240 [69, 0]).sp - 1) = true :=
  ⟨by decide, by decide, exists_next _ (by decide)⟩

theorem witness_StepRunsTheDecodedInstruction :
    (codeAt 253 [162, 4, 5]).runState = .running ∧ (codeAt 253 [162, 4, 5]).pc ≤ 253 ∧
    decode ((codeAt 253 [162, 4, 5]).codeByte 0) ((codeAt 253 [162, 4, 5]).codeByte 1)
      ((codeAt 253 [162, 4, 5]).codeByte 2) = .known (.multiply 4 5) := by decide

theorem witness_FetchWordRunsNext :
    (codeAt 253 []).runState = .running ∧ (codeAt 253 []).pc ≤ 253 ∧
    decodeTableWord 16 0x0747 = some (.print 7) := by decide

end Sys2Proof.Tests
end

/-! PROOFS. The state after reset (spec/10_state.md R34) and the output trace (R30). -/

namespace Sys2Proof.Machine

/-! ## Reset -/

@[simp] theorem State.reset_readReg (i : RegIndex) : State.reset.readReg i = 0 := by
  simp [State.readReg, State.reset]

/-- Settles O1: every element of the reset state is read off its table, and a step needs RUNNING. -/
theorem resetGivesTheStatedState : Obligations.ResetGivesTheStatedState :=
  ⟨fun _ => rfl, fun a _ => Memory.byteAt_nil a, State.reset_readReg, State.reset_pc, State.reset_sp,
    State.reset_runState, rfl, rfl, rfl, State.reset_out, fun _ _ hr hs => hr (running_of_step hs)⟩

/-! ## The output trace -/

theorem decode_eq_print_iff {op b1 b2 r : Byte} :
    decode op b1 b2 = .known (.print r) ↔ op = 71 ∧ r = b1 := by
  constructor
  · intro h
    simpa using decode_known_cases h
  · rintro ⟨rfl, rfl⟩
    exact decode_print r b2

/-- The only effect that touches the output is PRINT's, which appends its register. -/
theorem Effect.out_cases {s t : State} {i : Instr} (he : Effect s i t) :
    (t.out = s.out ∧ ∀ r, i ≠ .print r) ∨
    ∃ r, i = .print r ∧ ∃ h : r.toNat < Config.numRegs, t.out = s.out ++ [s.readReg ⟨r.toNat, h⟩] := by
  cases he with
  | print h => exact .inr ⟨_, rfl, h, rfl⟩
  | halt | loadImmediate | multiply | push | pop => exact .inl ⟨rfl, nofun⟩

/-- Settles O33: a step that faults keeps the output and is not RUNNING after it; one that completes has
the effect of the decoded instruction, and 71 is the opcode of PRINT alone. -/
theorem onlyPrintAppendsToOutput : Obligations.OnlyPrintAppendsToOutput := by
  refine ⟨State.reset_out, fun s t hs => ?_⟩
  obtain ⟨-, ho⟩ := step_cases hs
  cases ho with
  | overFetch | unrecognized | raised => exact .inl ⟨rfl, nofun⟩
  | completed hp hd he =>
    rcases he.out_cases with ⟨hout, hne⟩ | ⟨r, rfl, h, hout⟩
    · refine .inl ⟨hout, fun _ hop => ?_⟩
      rw [decode_eq_print_iff.mpr ⟨hop, rfl⟩] at hd
      cases hd
      exact hne _ rfl
    · obtain ⟨hop, rfl⟩ := decode_eq_print_iff.mp hd
      exact .inr ⟨hop, h, hout⟩

end Sys2Proof.Machine

/-! PROOFS. The memory interface: reads and overwrites (spec/20_memory.md R40, R42). -/

namespace Sys2Proof.Machine

/-! ## Bounds-checked reads and idempotent overwrites -/

/-- Settles O3: the two branches of the bounds check (spec/20_memory.md R40). -/
theorem memoryReadIsBoundsChecked : Obligations.MemoryReadIsBoundsChecked :=
  fun m _ => ⟨Memory.read_outside m, Memory.read_inside m⟩

namespace Memory

theorem erase_setByte (m : Memory) (a : Nat) (v : Byte) : erase (setByte m a v) a = erase m a := by
  have hu : ∀ c ∈ erase m a, c.1 ≠ a := fun c hc => (mem_erase.mp hc).2
  unfold setByte
  split
  · exact erase_of_unlisted hu
  · exact erase_insert v hu

/-- A later write to a cell overrides the earlier one: the lists are equal, whether canonical or not. -/
theorem setByte_setByte (m : Memory) (a : Nat) (v w : Byte) :
    setByte (setByte m a v) a w = setByte m a w := by
  rw [setByte, erase_setByte, ← setByte]

/-- No aliasing: two different integer addresses never name one cell, because none is wrapped or
clamped (spec/20_memory.md R40, R42). -/
theorem read_setByte_of_ne (m : Memory) {addr b : Int} (ha : 0 ≤ addr) (v : Byte) (hb : b ≠ addr) :
    (m.setByte addr.toNat v).read b = m.read b := by
  by_cases hr : 0 ≤ b ∧ b ≤ 255
  · have hne : addr.toNat ≠ b.toNat := by omega
    rw [read_inside _ hr, read_inside _ hr, byteAt_setByte, if_neg hne]
  · rw [read_outside _ (by omega), read_outside _ (by omega)]

end Memory

/-- Settles O5: a write that succeeds was in bounds and set one cell; setting it again is absorbed, and
reads of the cell and of the others follow from what `setByte` answers. -/
theorem memoryWritesAreIdempotentOverwrites : Obligations.MemoryWritesAreIdempotentOverwrites := by
  intro m m' addr v h
  obtain ⟨hr, rfl⟩ := Memory.write_cases h
  refine ⟨?_, ?_, fun b hb => Memory.read_setByte_of_ne m hr.1 v hb⟩
  · rw [Memory.write_inside _ hr, Memory.setByte_setByte]
  · rw [Memory.read_inside _ hr, Memory.byteAt_setByte, if_pos rfl]

end Sys2Proof.Machine

/-! PROOFS. The opcode map (spec/30_encoding.md R64) and the check of register operands (R62). -/

namespace Sys2Proof.Machine

/-! ## The opcode map -/

/-- Settles O9: `encode` and `width` are the table of spec/30_encoding.md R64, read row by row. -/
theorem opcodeMapIsBitExact : Obligations.OpcodeMapIsBitExact := by
  intro a b
  refine ⟨?halt, ?print, ?loadImmediate, ?multiply, ?push, ?pop⟩
  case halt | print | loadImmediate | multiply | push | pop => exact ⟨rfl, rfl⟩

/-! ## Register operands -/

/-- Taking a fault writes the record the spec gives for its cause and value (spec/60_exceptions.md
R170, R171). -/
theorem State.takeFault_eq_faultedWith (s : State) (e : Trap) :
    s.takeFault e = s.faultedWith e.cause e.info := rfl

/-- The faults `Raises` lists do occur: the converse of what `exec_cases` says of faults. -/
theorem Raises.exec_eq {s : State} {i : Instr} {e : Trap} (hr : Raises s i e) :
    exec i s = .next (s.faultedWith e.cause e.info) := by
  rw [← State.takeFault_eq_faultedWith]
  cases hr with
  | print h => exact execPrint_bad s h
  | loadImmediate h => exact execLoadImmediate_bad s _ h
  | multiplyA h => exact execMultiply_bad_a s _ h
  | multiplyB ha hb => exact execMultiply_bad_b s ha hb
  | push h => exact execPush_bad s h
  | pushOutside h hs => exact execPush_outside s h hs
  | pop h => exact execPop_bad s h
  | popTop h hs => exact execPop_top s h hs
  | popOutside h hs => exact execPop_outside s h hs

/-- Settles O15: the two branches of the register check, and the fault that each instruction with a
register operand raises at an index above 7. -/
theorem registerOperandsAreChecked : Obligations.RegisterOperandsAreChecked := by
  refine ⟨fun r h => checkReg_ok h, fun r s hr => ?_⟩
  have hbad : ¬ r.toNat < Config.numRegs := Nat.not_lt.mpr hr
  exact ⟨checkReg_bad hbad, (Raises.print hbad).exec_eq, fun _ => (Raises.loadImmediate hbad).exec_eq,
    fun _ => (Raises.multiplyA hbad).exec_eq, fun _ ha => (Raises.multiplyB ha hbad).exec_eq,
    (Raises.push hbad).exec_eq, (Raises.pop hbad).exec_eq⟩

end Sys2Proof.Machine

/-! PROOFS. The loop: dispatch (spec/40_loop.md R83), the faults of the fetch (R82) and of dispatch
(R85), and how `pc` advances (R84). -/

namespace Sys2Proof.Machine

/-! ## Dispatch -/

/-- Settles O10: the decoder's six arms, and the one for a byte outside `opcodes`. -/
theorem dispatchSelectsOneOfSevenArms : Obligations.DispatchSelectsOneOfSevenArms := by
  intro op b1 b2
  refine ⟨decode_halt b1 b2, decode_print b1 b2, decode_loadImmediate b1 b2, decode_multiply b1 b2,
    decode_push b1 b2, decode_pop b1 b2, fun h1 h71 h130 h162 h69 h70 => ?_⟩
  have hop : op ∉ opcodes := by
    simp only [opcodes, List.mem_cons, List.not_mem_nil, or_false, not_or]
    exact ⟨h1, h69, h70, h71, h130, h162⟩
  exact decode_of_not_opcode hop b1 b2

/-! ## Faults before an instruction runs -/

/-- Above 253 the fetch fails at the first address that does not exist (spec/40_loop.md R81, R82). -/
theorem step_overFetch {s : State} (hr : s.runState = .running) (hp : 253 < s.pc) :
    step s = .next (s.faultedWith .outOfBounds (max 256 s.pc : Nat)) :=
  (step_running hr).trans (iterate_overFetch hp)

/-- A fetched byte that is no opcode is the offending value of the fault (spec/40_loop.md R85). -/
theorem step_unrecognized {s : State} (hr : s.runState = .running) (hp : s.pc ≤ 253)
    (ho : s.codeByte 0 ∉ opcodes) :
    step s = .next (s.faultedWith .unrecognizedOpcode (s.codeByte 0).toNat) :=
  (step_running hr).trans (iterate_unknown hp (decode_of_not_opcode ho _ _))

/-- Settles O28: above 253 the step is the over-fetch, so no other end of a step starts there. -/
theorem overFetchFaults : Obligations.OverFetchFaults := by
  intro s hr
  refine ⟨fun hp => ?_, fun hp => ?_, fun t hs ht => ?_⟩
  · have hmax : max 256 s.pc = 256 := by omega
    rw [step_overFetch hr (by omega), hmax, Nat.cast_ofNat]
  · have hmax : max 256 s.pc = s.pc := by omega
    rw [step_overFetch hr (by omega), hmax]
  · by_contra hp
    rw [step_overFetch hr (by omega)] at hs
    cases hs
    exact ht rfl

/-- Settles O29: dispatch faults where the fetch succeeds; where it fails, the over-fetch comes first. -/
theorem unrecognizedOpcodeFaults : Obligations.UnrecognizedOpcodeFaults :=
  fun _ hr ho => ⟨fun hp => step_unrecognized hr hp ho, fun hp => step_overFetch hr hp⟩

/-! ## The program counter -/

theorem decode_eq_halt_iff {op b1 b2 : Byte} : decode op b1 b2 = .known .halt ↔ op = 1 := by
  constructor
  · intro h
    simpa using decode_known_cases h
  · rintro rfl
    exact decode_halt b1 b2

/-- The width of a decoded instruction other than HALT, read off its opcode (spec/30_encoding.md R64). -/
theorem decode_width_cases {op b1 b2 : Byte} {i : Instr} (hd : decode op b1 b2 = .known i)
    (hi : i ≠ .halt) :
    ((op = 130 ∨ op = 162) ∧ i.width = 3) ∨ ((op = 71 ∨ op = 69 ∨ op = 70) ∧ i.width = 2) := by
  rcases decode_known_cases hd with
    ⟨-, rfl⟩ | ⟨ho, rfl⟩ | ⟨ho, rfl⟩ | ⟨ho, rfl⟩ | ⟨ho, rfl⟩ | ⟨ho, rfl⟩
  · exact absurd rfl hi
  · exact .inr ⟨.inl ho, rfl⟩
  · exact .inl ⟨.inl ho, rfl⟩
  · exact .inl ⟨.inr ho, rfl⟩
  · exact .inr ⟨.inr (.inl ho), rfl⟩
  · exact .inr ⟨.inr (.inr ho), rfl⟩

/-- HALT's effect ends the run where it stands; every other effect keeps the run state and advances `pc`
by the instruction's width (spec/40_loop.md R84). -/
theorem Effect.pc_cases {s t : State} {i : Instr} (he : Effect s i t) :
    (i = .halt ∧ t.runState = .halted ∧ t.pc = s.pc) ∨
    (i ≠ .halt ∧ t.runState = s.runState ∧ t.pc = s.pc + i.width) := by
  cases he with
  | halt => exact .inl ⟨rfl, rfl, rfl⟩
  | print | loadImmediate | multiply | push | pop => exact .inr ⟨nofun, rfl, rfl⟩

/-- Settles O32: a fault keeps `pc`; what completes is HALT, or an instruction whose effect advances `pc`
by the width that belongs to its opcode. -/
theorem pcAdvancesByWidth : Obligations.PcAdvancesByWidth := by
  intro s t hs
  obtain ⟨hr, ho⟩ := step_cases hs
  cases ho with
  | overFetch | unrecognized | raised => exact ⟨nofun, nofun, fun _ => rfl⟩
  | completed hp hd he =>
    rcases he.pc_cases with ⟨rfl, hrun, hpc⟩ | ⟨hi, hrun, hpc⟩
    · have hop := decode_eq_halt_iff.mp hd
      simp [hrun, hop, hpc]
    · have hw := decode_width_cases hd hi
      simpa [hrun, hr, hpc] using hw

end Sys2Proof.Machine

/-! PROOFS. HALT as a step (spec/41_halt.md R100). -/

namespace Sys2Proof.Machine

/-! ## HALT -/

/-- A step whose fetch succeeds runs the instruction its window decodes to (spec/40_loop.md R86). -/
theorem step_known {s : State} {i : Instr} (hr : s.runState = .running) (hp : s.pc ≤ 253)
    (hd : decode (s.codeByte 0) (s.codeByte 1) (s.codeByte 2) = .known i) : step s = exec i s :=
  (step_running hr).trans (iterate_known hp hd)

/-- Settles O22: up to 253 the byte 1 decodes to HALT, whatever follows it, and the step is HALT's rule; at
254 and 255 the fetch faults before dispatch, at the first address that does not exist. -/
theorem haltRule : Obligations.HaltRule := by
  refine ⟨rfl, fun s hr hop => ⟨fun hp => ?_, fun hp => ?_⟩⟩
  · calc step s = exec .halt s := step_known hr hp (decode_eq_halt_iff.mpr hop)
      _ = .next { s with runState := .halted } := execHalt_eq s
  · obtain ⟨hfault, -, -⟩ := overFetchFaults s hr
    exact hfault hp

end Sys2Proof.Machine

/-! PROOFS. The register instructions LOAD-IMMEDIATE (spec/42_register.md R110) and PRINT (R111) as
steps. -/

namespace Sys2Proof.Machine

/-! ## A step by the effect or the fault of its instruction -/

/-- The effects `Effect` lists do occur: the converse of what `exec_cases` says of completion. -/
theorem Effect.exec_eq {s t : State} {i : Instr} (he : Effect s i t) : exec i s = .next t := by
  cases he with
  | halt => exact execHalt_eq s
  | print h => exact execPrint_ok s h
  | loadImmediate h => exact execLoadImmediate_ok s _ h
  | multiply ha hb => exact execMultiply_ok s ha hb
  | push h hs => exact execPush_ok s h hs
  | pop h hs => exact execPop_ok s h hs

theorem step_of_effect {s t : State} {i : Instr} (hr : s.runState = .running) (hp : s.pc ≤ 253)
    (hd : decode (s.codeByte 0) (s.codeByte 1) (s.codeByte 2) = .known i) (he : Effect s i t) :
    step s = .next t :=
  (step_known hr hp hd).trans he.exec_eq

theorem step_of_raises {s : State} {i : Instr} {e : Trap} (hr : s.runState = .running)
    (hp : s.pc ≤ 253) (hd : decode (s.codeByte 0) (s.codeByte 1) (s.codeByte 2) = .known i)
    (he : Raises s i e) : step s = .next (s.faultedWith e.cause e.info) :=
  (step_known hr hp hd).trans he.exec_eq

/-! ## LOAD-IMMEDIATE -/

/-- Settles O23: up to 253 the byte 130 decodes to LOAD-IMMEDIATE of the two bytes after it, and the
register check selects its effect or its fault; above 253 the step is the over-fetch. -/
theorem loadImmediateRule : Obligations.LoadImmediateRule := by
  refine ⟨fun _ _ => rfl, fun s hr hop => ?_⟩
  have hd : decode (s.codeByte 0) (s.codeByte 1) (s.codeByte 2) =
      .known (.loadImmediate (s.codeByte 1) (s.codeByte 2)) := by
    rw [hop]
    exact decode_loadImmediate _ _
  refine ⟨fun hp h => ?completes, fun hp hbad => ?invalidRegister, fun hp => ?overFetch⟩
  case completes => exact step_of_effect hr hp hd (.loadImmediate h)
  case invalidRegister => exact step_of_raises hr hp hd (.loadImmediate (Nat.not_lt.mpr hbad))
  case overFetch => exact step_overFetch hr hp

/-! ## PRINT -/

/-- Settles O24: up to 253 the byte 71 decodes to PRINT of the byte after it, and the register check
selects its effect or its fault; above 253 the step is the over-fetch. -/
theorem printRule : Obligations.PrintRule := by
  refine ⟨fun _ => rfl, fun s hr hop => ?_⟩
  have hd : decode (s.codeByte 0) (s.codeByte 1) (s.codeByte 2) = .known (.print (s.codeByte 1)) :=
    decode_eq_print_iff.mpr ⟨hop, rfl⟩
  refine ⟨fun hp h => ?completes, fun hp hbad => ?invalidRegister, fun hp => ?overFetch⟩
  case completes => exact step_of_effect hr hp hd (.print h)
  case invalidRegister => exact step_of_raises hr hp hd (.print (Nat.not_lt.mpr hbad))
  case overFetch => exact step_overFetch hr hp

end Sys2Proof.Machine

/-! PROOFS. The ALU (spec/43_alu.md R130 to R132) and MULTIPLY as a step (R135). -/

namespace Sys2Proof.Machine

/-! ## The ALU -/

theorem toNat_alu_add (p q : Byte) : (alu .add p q).toNat = (p.toNat + q.toNat) % 256 := by
  rw [alu_add_eq, BitVec.toNat_add]

theorem toNat_alu_mul (p q : Byte) : (alu .mul p q).toNat = p.toNat * q.toNat % 256 := by
  rw [alu_mul_eq, BitVec.toNat_mul]

/-- Settles O7: the two constructors of `AluOp`, and the value of each operation as a number. -/
theorem aluIsExactThenModulo256 : Obligations.AluIsExactThenModulo256 := by
  refine ⟨fun tag => ?_, fun p q => ⟨toNat_alu_add p q, toNat_alu_mul p q⟩⟩
  cases tag with
  | add => exact .inl rfl
  | mul => exact .inr rfl

/-- The byte MUL answers is the low 8 bits of the unsigned product (spec/43_alu.md R132). -/
theorem alu_mul_eq_ofNat (p q : Byte) :
    alu .mul p q = BitVec.ofNat 8 (p.toNat * q.toNat % 256) := by
  rw [← toNat_alu_mul, BitVec.ofNat_toNat, BitVec.setWidth_eq]

/-! ## MULTIPLY -/

/-- Settles O25: up to 253 the byte 162 decodes to MULTIPLY of the two bytes after it, and the register
checks, `a`'s before `b`'s, select its effect or its fault; above 253 the step is the over-fetch. -/
theorem multiplyRule : Obligations.MultiplyRule := by
  refine ⟨fun _ _ => rfl, fun s hr hop => ?_⟩
  have hd : decode (s.codeByte 0) (s.codeByte 1) (s.codeByte 2) =
      .known (.multiply (s.codeByte 1) (s.codeByte 2)) := by
    rw [hop]
    exact decode_multiply _ _
  refine ⟨fun hp ha hb => ?completes, fun hp hbad => ?invalidA, fun hp ha hbad => ?invalidB,
    fun hp => ?overFetch⟩
  case completes =>
    rw [← alu_mul_eq_ofNat]
    exact step_of_effect hr hp hd (.multiply ha hb)
  case invalidA => exact step_of_raises hr hp hd (.multiplyA (Nat.not_lt.mpr hbad))
  case invalidB => exact step_of_raises hr hp hd (.multiplyB ha (Nat.not_lt.mpr hbad))
  case overFetch => exact step_overFetch hr hp

end Sys2Proof.Machine

/-! PROOFS. The stack instruction POP as a step (spec/44_stack.md R152). -/

namespace Sys2Proof.Machine

/-! ## POP -/

/-- Settles O27: up to 253 the byte 70 decodes to POP of the byte after it; the register check, and
then the check of `sp + 1`, selects its effect or its fault (the cell at `sp` exists, so its read raises
nothing); above 253 the step is the over-fetch. -/
theorem popRule : Obligations.PopRule := by
  refine ⟨fun _ => rfl, fun s hr hop hlow _ => ?_⟩
  have hd : decode (s.codeByte 0) (s.codeByte 1) (s.codeByte 2) = .known (.pop (s.codeByte 1)) := by
    rw [hop]
    exact decode_pop _ _
  refine ⟨fun hp h hsp => ?completes, fun hp hbad => ?invalidRegister, fun hp h htop => ?stackTop,
    fun hp => ?overFetch⟩
  case completes => exact step_of_effect hr hp hd (.pop h ⟨hlow, hsp⟩)
  case invalidRegister => exact step_of_raises hr hp hd (.pop (Nat.not_lt.mpr hbad))
  case stackTop => exact step_of_raises hr hp hd (.popTop h htop)
  case overFetch => exact step_overFetch hr hp

end Sys2Proof.Machine

/-! PROOFS. Faults: their precision (spec/60_exceptions.md R170) and the order in which a step looks for
them (R174). -/

namespace Sys2Proof.Machine

/-! ## Precise faults -/

/-- No effect is a fault: HALT's ends the run HALTED and the others keep it RUNNING. -/
theorem Effect.runState_ne_faulted {s t : State} {i : Instr} (hr : s.runState = .running)
    (he : Effect s i t) : t.runState ≠ .faulted := by
  rcases he.pc_cases with ⟨-, hrun, -⟩ | ⟨-, hrun, -⟩ <;> simp [hrun, hr]

/-- A step that ends FAULTED took one fault in the state it started from (spec/60_exceptions.md R170). -/
theorem StepOutcome.exists_takeFault {s t : State} (hr : s.runState = .running)
    (ho : StepOutcome s t) (hf : t.runState = .faulted) : ∃ e, t = s.takeFault e := by
  cases ho with
  | overFetch | unrecognized | raised => exact ⟨_, rfl⟩
  | completed _ _ he => exact absurd hf (he.runState_ne_faulted hr)

/-- Settles O30: the state a faulting step answers is the one `takeFault` writes, and a step needs RUNNING. -/
theorem faultsArePreciseAndTerminal : Obligations.FaultsArePreciseAndTerminal := by
  intro s t hs hf
  obtain ⟨hr, ho⟩ := step_cases hs
  obtain ⟨e, rfl⟩ := ho.exists_takeFault hr hf
  exact ⟨⟨e, rfl, rfl⟩, rfl, rfl, rfl, rfl, rfl, rfl, fun _ hu => nomatch running_of_step hu⟩

/-! ## The first fault that applies -/

theorem decode_eq_multiply {op : Byte} (ho : op = 162) (b1 b2 : Byte) :
    decode op b1 b2 = .known (.multiply b1 b2) := ho ▸ decode_multiply b1 b2

theorem decode_eq_push {op : Byte} (ho : op = 69) (b1 b2 : Byte) :
    decode op b1 b2 = .known (.push b1) := ho ▸ decode_push b1 b2

theorem decode_eq_pop {op : Byte} (ho : op = 70) (b1 b2 : Byte) :
    decode op b1 b2 = .known (.pop b1) := ho ▸ decode_pop b1 b2

/-- The first operand is a register of every instruction but HALT, and it is checked before anything
else the instruction does (spec/60_exceptions.md R174). -/
theorem exists_raises_of_bad_operand {s : State} (ho : s.codeByte 0 ∈ opcodes) (hne : s.codeByte 0 ≠ 1)
    (hbad : ¬ (s.codeByte 1).toNat < Config.numRegs) :
    ∃ i, decode (s.codeByte 0) (s.codeByte 1) (s.codeByte 2) = .known i ∧
      Raises s i (.invalidRegister (s.codeByte 1)) := by
  rcases decode_cases (s.codeByte 0) (s.codeByte 1) (s.codeByte 2) with
    ⟨hop, -⟩ | ⟨-, hd⟩ | ⟨-, hd⟩ | ⟨-, hd⟩ | ⟨-, hd⟩ | ⟨-, hd⟩ | ⟨hno, -⟩
  · exact absurd hop hne
  · exact ⟨_, hd, .print hbad⟩
  · exact ⟨_, hd, .loadImmediate hbad⟩
  · exact ⟨_, hd, .multiplyA hbad⟩
  · exact ⟨_, hd, .push hbad⟩
  · exact ⟨_, hd, .pop hbad⟩
  · exact absurd ho hno

/-- The step records the first fault of the list, item by item (spec/60_exceptions.md R174). The
item of the unrecognised opcode comes last: there the check on the opcode byte fails. -/
theorem step_of_firstFault_eq_some {s : State} {c : FaultCause} {info : Int}
    (hr : s.runState = .running) (hhigh : s.sp ≤ 255) (h : s.firstFault = some (c, info)) :
    step s = .next (s.faultedWith c info) := by
  unfold State.firstFault at h
  split_ifs at h with hfetch0 hfetch1 hfetch2 hop hreg1 hreg2 hpush hpop <;> cases h
  · have haddr : ((max 256 s.pc : Nat) : Int) = s.pc := by omega
    rw [step_overFetch hr (by omega), haddr]
  · have haddr : ((max 256 s.pc : Nat) : Int) = s.pc + 1 := by omega
    rw [step_overFetch hr (by omega), haddr]
  · have haddr : ((max 256 s.pc : Nat) : Int) = s.pc + 2 := by omega
    rw [step_overFetch hr (by omega), haddr]
  · obtain ⟨hne, hbad⟩ := hreg1
    obtain ⟨i, hd, he⟩ := exists_raises_of_bad_operand hop hne (Nat.not_lt.mpr hbad)
    exact step_of_raises hr (by omega) hd he
  · obtain ⟨hmul, hbad⟩ := hreg2
    have ha := Nat.lt_of_not_le (not_and.mp hreg1 (by simp [hmul]))
    exact step_of_raises hr (by omega) (decode_eq_multiply hmul _ _)
      (.multiplyB ha (Nat.not_lt.mpr hbad))
  · obtain ⟨hpush, hneg⟩ := hpush
    have hreg := Nat.lt_of_not_le (not_and.mp hreg1 (by simp [hpush]))
    exact step_of_raises hr (by omega) (decode_eq_push hpush _ _) (.pushOutside hreg (.inl hneg))
  · obtain ⟨hpop, htop⟩ := hpop
    have hsp : s.sp = 255 := by omega
    have hreg := Nat.lt_of_not_le (not_and.mp hreg1 (by simp [hpop]))
    rw [hsp]
    exact step_of_raises hr (by omega) (decode_eq_pop hpop _ _) (.popTop hreg hsp)
  · exact step_unrecognized hr (by omega) hop

/-- Where no fault of the list applies, every check of the step passes. -/
theorem checks_pass_of_firstFault_eq_none {s : State} (h : s.firstFault = none) :
    s.pc ≤ 253 ∧ s.codeByte 0 ∈ opcodes ∧
    (s.codeByte 0 ≠ 1 → (s.codeByte 1).toNat < Config.numRegs) ∧
    (s.codeByte 0 = 162 → (s.codeByte 2).toNat < Config.numRegs) ∧
    (s.codeByte 0 = 69 → 0 ≤ s.sp - 1) ∧ (s.codeByte 0 = 70 → s.sp ≤ 254) := by
  unfold State.firstFault at h
  split_ifs at h with hfetch0 hfetch1 hfetch2 hop hreg1 hreg2 hpush hpop
  exact ⟨by omega, hop, fun hne => Nat.lt_of_not_le (not_and.mp hreg1 hne),
    fun hmul => Nat.lt_of_not_le (not_and.mp hreg2 hmul),
    fun hop => Int.not_lt.mp (not_and.mp hpush hop), fun hop => by have := not_and.mp hpop hop; omega⟩

/-- Where no fault of the list applies, the decoded instruction has its effect. -/
theorem exists_effect_of_firstFault_eq_none {s : State} (hlow : 0 ≤ s.sp) (hhigh : s.sp ≤ 255)
    (h : s.firstFault = none) :
    ∃ i t, decode (s.codeByte 0) (s.codeByte 1) (s.codeByte 2) = .known i ∧ Effect s i t := by
  obtain ⟨-, hop, hreg1, hreg2, hpush, hpop⟩ := checks_pass_of_firstFault_eq_none h
  rcases decode_cases (s.codeByte 0) (s.codeByte 1) (s.codeByte 2) with
    ⟨-, hd⟩ | ⟨ho, hd⟩ | ⟨ho, hd⟩ | ⟨ho, hd⟩ | ⟨ho, hd⟩ | ⟨ho, hd⟩ | ⟨hno, -⟩
  · exact ⟨_, _, hd, .halt⟩
  · exact ⟨_, _, hd, .print (hreg1 (by simp [ho]))⟩
  · exact ⟨_, _, hd, .loadImmediate (hreg1 (by simp [ho]))⟩
  · exact ⟨_, _, hd, .multiply (hreg1 (by simp [ho])) (hreg2 ho)⟩
  · exact ⟨_, _, hd, .push (hreg1 (by simp [ho])) ⟨hpush ho, by omega⟩⟩
  · exact ⟨_, _, hd, .pop (hreg1 (by simp [ho])) ⟨hlow, hpop ho⟩⟩
  · exact absurd hop hno

/-- Settles O31: the step takes the first fault of the list; where there is none, the step is the decoded
instruction's effect. -/
theorem firstFaultInPriorityOrder : Obligations.FirstFaultInPriorityOrder := by
  intro s hr hlow hhigh
  refine ⟨fun _ _ h => step_of_firstFault_eq_some hr hhigh h, fun h => ?_⟩
  obtain ⟨hp, -⟩ := checks_pass_of_firstFault_eq_none h
  obtain ⟨i, t, hd, he⟩ := exists_effect_of_firstFault_eq_none hlow hhigh h
  exact ⟨t, step_of_effect hr hp hd he, he.runState_ne_faulted hr⟩

end Sys2Proof.Machine

/-! PROOFS. The launch of a run (spec/70_reset_and_hazards.md R201). -/

namespace Sys2Proof.Machine

/-! ## Launch -/

/-- Every sequence of at most 256 bytes has a launch state: the converse of `launch_cases`. -/
theorem launch_of_bytes {p : List Nat} (hl : p.length ≤ 256) (hv : ∀ v ∈ p, v < 256) :
    launch p = some { State.reset with mem := placeBytes 0 (p.map (BitVec.ofNat 8)) State.reset.mem } :=
  if_pos ⟨hl, hv⟩

/-- A program loaded into the memory after reset is read back byte by byte, and the cells above it still
hold the reset byte, 0. -/
theorem toNat_byteAt_loaded {p : List Nat} (hl : p.length ≤ 256) (hv : ∀ v ∈ p, v < 256) (i : Nat) :
    (Memory.byteAt (placeBytes 0 (p.map (BitVec.ofNat 8)) State.reset.mem) i).toNat =
      if i < p.length then p.getD i 0 else 0 := by
  have hfit : 0 + (p.map (BitVec.ofNat 8)).length ≤ Config.memSize := by simpa using hl
  rw [Memory.byteAt_placeBytes _ _ _ _ hfit, if_pos i.zero_le, Nat.sub_zero, State.reset_mem,
    Memory.byteAt_nil]
  split
  · next hi =>
    have hbyte : p[i] < 2 ^ 8 := hv _ (List.getElem_mem hi)
    rw [List.getD_eq_getElem _ _ (by simpa using hi), List.getElem_map, List.getD_eq_getElem _ _ hi,
      BitVec.toNat_ofNat, Nat.mod_eq_of_lt hbyte]
  · next hi =>
    rw [List.getD_eq_default _ _ (by simpa using hi)]
    rfl

/-- Settles O43: a legal program passes the loader's check, its bytes are read back from address 0 up, and
every element but the memory is that of the reset state. -/
theorem launchWritesTheProgram : Obligations.LaunchWritesTheProgram := by
  intro p hl hv
  have hbytes : ∀ v ∈ p, v < 256 := fun v hm => Nat.lt_succ_of_le (hv v hm)
  exact ⟨_, launch_of_bytes hl hbytes, fun i _ => toNat_byteAt_loaded hl hbytes i, State.reset_readReg,
    State.reset_pc, State.reset_sp, State.reset_runState, rfl, rfl, rfl, State.reset_out⟩

end Sys2Proof.Machine

/-! PROOFS. Encodings (spec/30_encoding.md): sequences of instructions, table words and fetch windows
decode back to what was encoded. -/

namespace Sys2Proof

open Machine

/-! ## Sequences of instructions -/

theorem Laws.RoundTrip.statement (i : Instr) : Statement i := by
  cases i with
  | halt => exact halt
  | print r => exact print r
  | loadImmediate r imm => exact loadImmediate r imm
  | multiply a b => exact multiply a b
  | push r => exact push r
  | pop r => exact pop r

theorem length_encode (i : Instr) : (encode i).length = i.width := (Laws.RoundTrip.statement i).1

theorem decodeFront_encode_append (i : Instr) (rest : List Byte) :
    decodeFront (encode i ++ rest) = some (i, rest) := (Laws.RoundTrip.statement i).2 rest

/-- One more instruction in front is one more that is read (spec/30_encoding.md R68). -/
theorem decodeProgram_succ {n : Nat} {bs rest left : List Byte} {i : Instr} {is : List Instr}
    (hi : decodeFront bs = some (i, rest)) (his : decodeProgram n rest = some (is, left)) :
    decodeProgram (n + 1) bs = some (i :: is, left) := by
  simp only [decodeProgram, hi, his]

/-- Settles O12, by induction on the instructions: the front of the bytes is the first one's encoding,
and what follows it is the encoding of the others. -/
theorem programBytesDecodeBack : Obligations.ProgramBytesDecodeBack := by
  intro is after
  induction is with
  | nil => rfl
  | cons i is ih =>
    rw [List.flatMap_cons, List.append_assoc]
    exact decodeProgram_succ (decodeFront_encode_append i _) ih

/-! ## Windows -/

/-- The window that begins with an instruction's bytes decodes to it, whatever follows and also where
nothing does (spec/30_encoding.md R67). -/
theorem decode_encode_append (i : Instr) (rest : List Byte) :
    decode ((encode i ++ rest).getD 0 0) ((encode i ++ rest).getD 1 0)
      ((encode i ++ rest).getD 2 0) = .known i := by
  cases i with
  | halt => exact decode_halt _ _
  | print r => exact decode_print r _
  | loadImmediate r imm => exact decode_loadImmediate r imm
  | multiply a b => exact decode_multiply a b
  | push r => exact decode_push r _
  | pop r => exact decode_pop r _

/-- Settles O14: the opcode byte fixes the constructor, and the operands are the bytes after it. -/
theorem eachInstructionHasOneEncoding : Obligations.EachInstructionHasOneEncoding := by
  intro op b1 b2 i hd
  rcases decode_known_cases hd with
    ⟨rfl, rfl⟩ | ⟨rfl, rfl⟩ | ⟨rfl, rfl⟩ | ⟨rfl, rfl⟩ | ⟨rfl, rfl⟩ | ⟨rfl, rfl⟩ <;> rfl

/-- Settles O11: the decoder's equations for HALT, PRINT, PUSH and POP name no byte they ignore. -/
theorem unusedOperandBytesNeverMatter : Obligations.UnusedOperandBytesNeverMatter := by
  intro b1 b2 c1 c2
  refine ⟨(decode_halt b1 b2).trans (decode_halt c1 c2).symm, fun op hop => ?_⟩
  rcases hop with rfl | rfl | rfl
  · exact (decode_print b1 b2).trans (decode_print b1 c2).symm
  · exact (decode_push b1 b2).trans (decode_push b1 c2).symm
  · exact (decode_pop b1 b2).trans (decode_pop b1 c2).symm

/-! ## Table words -/

theorem packBytes_lt (bs : List Byte) : packBytes bs < 2 ^ (8 * bs.length) := by
  induction bs with
  | nil => exact Nat.one_pos
  | cons b bs ih =>
    have hb : b.toNat < 256 := b.isLt
    rw [packBytes, List.length_cons, Nat.mul_succ, Nat.pow_add]
    omega

/-- Shifting a packed word right by whole bytes drops the bytes from its front. -/
theorem packBytes_div (bs : List Byte) (k : Nat) : packBytes bs / 2 ^ (8 * k) = packBytes (bs.drop k) := by
  induction k generalizing bs with
  | zero => simp
  | succ k ih =>
    cases bs with
    | nil => simp [packBytes]
    | cons b bs =>
      have hb : b.toNat < 256 := b.isLt
      have hrest : (b.toNat + 256 * packBytes bs) / 256 = packBytes bs := by omega
      rw [List.drop_succ_cons, ← ih bs, packBytes, Nat.mul_succ, Nat.add_comm (8 * k), Nat.pow_add,
        ← Nat.div_div_eq_div_mul, hrest]

theorem ofNat_packBytes (bs : List Byte) : BitVec.ofNat 8 (packBytes bs) = bs.getD 0 0 := by
  cases bs with
  | nil => rfl
  | cons b bs =>
    apply BitVec.eq_of_toNat_eq
    rw [BitVec.toNat_ofNat, packBytes, List.getD_cons_zero]
    exact (Nat.add_mul_mod_self_left _ _ _).trans (Nat.mod_eq_of_lt b.isLt)

/-- Byte `k` of the word packed from a sequence is its byte `k`; past its end it is 0. -/
theorem tableByte_packBytes (bs : List Byte) (k : Nat) :
    tableByte (8 * bs.length) (packBytes bs) k = bs.getD k 0 := by
  rw [tableByte, Nat.mod_eq_of_lt (packBytes_lt bs), packBytes_div, ofNat_packBytes]
  simp [List.getD_eq_getElem?_getD]

/-- Settles O13: the bytes of the packed word are the instruction's own with nothing after them, and the
window of its bytes decodes to it, whatever follows. -/
theorem tableWordsAndWindowsDecodeBack : Obligations.TableWordsAndWindowsDecodeBack := by
  intro i p q
  refine ⟨?_, decode_encode_append i [p, q]⟩
  have hwindow := decode_encode_append i []
  rw [List.append_nil] at hwindow
  rw [decodeTableWord, ← length_encode, tableByte_packBytes, tableByte_packBytes, tableByte_packBytes,
    hwindow, Decoded.instr?]

end Sys2Proof

/-! PROOFS. The memory interface: what one write does (spec/20_memory.md R41), and that the canonical
form determines the memory (spec/10_state.md R21). -/

namespace Sys2Proof.Machine

namespace Memory

/-! ## One write -/

theorem byteAt_setByte_self (m : Memory) (a : Nat) (v : Byte) : byteAt (setByte m a v) a = v := by
  rw [byteAt_setByte, if_pos rfl]

theorem byteAt_setByte_of_ne (m : Memory) {a b : Nat} (v : Byte) (h : b ≠ a) :
    byteAt (setByte m a v) b = byteAt m b := by
  rw [byteAt_setByte, if_neg h.symm]

end Memory

/-- Settles O4: outside the bounds check fails, and inside the write sets one cell. -/
theorem memoryWriteReplacesOneCell : Obligations.MemoryWriteReplacesOneCell := by
  refine fun m addr v => ⟨fun h => Memory.write_outside m h v, fun h => ?_⟩
  have hw := Memory.write_inside m h v
  exact ⟨_, hw, Memory.byteAt_setByte_self _ _ _, fun _ => Memory.byteAt_setByte_of_ne _ _,
    fun hm => Memory.wf_write hm hw⟩

/-! ## The canonical form determines the memory -/

namespace Memory

/-- In a canonical memory an entry is what its address reads as. -/
theorem byteAt_of_mem {m : Memory} (hm : m.wf) {c : Host.Cell} (hc : c ∈ m) : byteAt m c.1 = c.2 := by
  obtain ⟨hsorted, -⟩ := hm
  induction m with
  | nil => cases hc
  | cons d m ih =>
    obtain ⟨hd, hsorted⟩ := List.pairwise_cons.mp hsorted
    rcases List.mem_cons.mp hc with rfl | hc
    · rw [byteAt_cons, if_pos rfl]
    · rw [byteAt_cons, if_neg (Nat.ne_of_lt (hd c hc)), ih hc hsorted]

/-- What does not read as the reset byte is listed. -/
theorem mem_of_byteAt_ne {m : Memory} {a : Nat} (h : byteAt m a ≠ Config.resetByte) :
    (a, byteAt m a) ∈ m := by
  induction m with
  | nil => exact absurd (byteAt_nil a) h
  | cons c m ih =>
    rw [byteAt_cons] at h ⊢
    split at h
    · next ha => rw [if_pos ha, ← ha]; exact List.mem_cons_self
    · next ha => rw [if_neg ha]; exact List.mem_cons_of_mem c (ih h)

/-- A canonical memory lists no more than any list that reads alike. -/
theorem subset_of_byteAt_eq {m m' : Memory} (hm : m.wf)
    (h : ∀ a : Nat, a < 256 → m.byteAt a = m'.byteAt a) : m ⊆ m' := by
  intro c hc
  obtain ⟨haddr, hbyte⟩ := hm.2 c hc
  have hread : byteAt m' c.1 = c.2 := (h c.1 haddr).symm.trans (byteAt_of_mem hm hc)
  have hmem := mem_of_byteAt_ne (hread.trans_ne hbyte)
  rwa [hread] at hmem

/-- Rising addresses do not repeat. -/
theorem nodup_of_wf {m : Memory} (hm : m.wf) : m.Nodup :=
  hm.1.imp fun hlt heq => Nat.ne_of_lt hlt (congrArg Prod.fst heq)

end Memory

/-- Settles O6: two canonical memories that read alike list the same cells, and the addresses rise
strictly, so they list them in the same order. -/
theorem canonicalMemoriesWithEqualBytesAreEqual :
    Obligations.CanonicalMemoriesWithEqualBytesAreEqual := by
  intro m m' hm hm' h
  have hsame : ∀ c, c ∈ m ↔ c ∈ m' := fun c =>
    ⟨fun hc => Memory.subset_of_byteAt_eq hm h hc,
      fun hc => Memory.subset_of_byteAt_eq hm' (fun a ha => (h a ha).symm) hc⟩
  have hperm : m.Perm m' :=
    (List.perm_ext_iff_of_nodup (Memory.nodup_of_wf hm) (Memory.nodup_of_wf hm')).mpr hsame
  exact hperm.eq_of_pairwise (fun c d _ _ hcd hdc => absurd hcd (Nat.lt_asymm hdc)) hm.1 hm'.1

/-! ## The ALU's laws -/

/-- Settles O8: the two operations are addition and multiplication of bytes, that is of numbers modulo
256 (spec/43_alu.md section 3). -/
theorem aluCommutesAndAssociates : Obligations.AluCommutesAndAssociates := by
  intro tag p q r
  cases tag with
  | add => simp only [alu_add_eq]; exact ⟨BitVec.add_comm p q, BitVec.add_assoc p q r⟩
  | mul => simp only [alu_mul_eq]; exact ⟨BitVec.mul_comm p q, BitVec.mul_assoc p q r⟩

end Sys2Proof.Machine

/-! PROOFS. Where each instruction completes and with what (spec/41_halt.md, spec/42_register.md,
spec/43_alu.md, spec/44_stack.md), and PUSH as a step (R151). -/

namespace Sys2Proof.Machine

/-! ## Completion -/

/-- Settles O16: HALT's effect needs no operand. -/
theorem haltCompletes : Obligations.HaltCompletes := fun _ => Effect.halt.exec_eq

/-- Settles O17: the effect of LOAD-IMMEDIATE where the register check passes. -/
theorem loadImmediateCompletes : Obligations.LoadImmediateCompletes :=
  fun _ _ _ h => (Effect.loadImmediate h).exec_eq

/-- Settles O18: the effect of PRINT where the register check passes. -/
theorem printCompletes : Obligations.PrintCompletes := fun _ _ h => (Effect.print h).exec_eq

/-- Settles O19: the effect of MULTIPLY where both register checks pass; its byte is the low 8 bits of
the product. -/
theorem multiplyCompletes : Obligations.MultiplyCompletes := by
  intro s a b ha hb
  rw [← alu_mul_eq_ofNat]
  exact (Effect.multiply ha hb).exec_eq

/-- Settles O20: the effect of PUSH where the register check and the bounds check pass, whose memory
differs in one cell. -/
theorem pushCompletes : Obligations.PushCompletes := fun s _ h hlow hhigh =>
  ⟨_, (Effect.push h ⟨hlow, hhigh⟩).exec_eq, Memory.byteAt_setByte_self s.mem _ _,
    fun _ => Memory.byteAt_setByte_of_ne s.mem _⟩

/-- Settles O21: the effect of POP where the register check passes and both `sp` and `sp + 1` are
addresses. -/
theorem popCompletes : Obligations.PopCompletes :=
  fun _ _ h hlow hhigh => (Effect.pop h ⟨hlow, hhigh⟩).exec_eq

/-! ## PUSH as a step -/

/-- Settles O26: up to 253 the byte 69 decodes to PUSH of the byte after it; the register check, and then
the bounds check of `sp - 1`, selects its completion or its fault; above 253 the step is the
over-fetch. -/
theorem pushRule : Obligations.PushRule := by
  refine ⟨fun _ => rfl, fun s hr hop hlow hhigh => ?_⟩
  have hd := decode_eq_push hop (s.codeByte 1) (s.codeByte 2)
  refine ⟨fun hp h hsp => ?completes, fun hp hbad => ?invalidRegister, fun hp h hzero => ?stackBottom,
    fun hp => ?overFetch⟩
  case completes =>
    rw [step_known hr hp hd]
    exact pushCompletes s _ h (by omega) (by omega)
  case invalidRegister => exact step_of_raises hr hp hd (.push (Nat.not_lt.mpr hbad))
  case stackBottom =>
    have haddr : s.sp - 1 = -1 := by omega
    rw [← haddr]
    exact step_of_raises hr hp hd (.pushOutside h (by omega))
  case overFetch => exact step_overFetch hr hp

end Sys2Proof.Machine

/-! PROOFS. What an instruction's effect changes and what it leaves: the one layer the frames, the
whole-machine rules and the invariants are read off. -/

namespace Sys2Proof.Machine

/-! ## Effects, field by field -/

/-- No effect writes the fault record (spec/60_exceptions.md R170). -/
theorem Effect.record_eq {s t : State} {i : Instr} (he : Effect s i t) :
    t.faultCause = s.faultCause ∧ t.faultPc = s.faultPc ∧ t.faultInfo = s.faultInfo := by
  cases he with
  | halt | print | loadImmediate | multiply | push | pop => exact ⟨rfl, rfl, rfl⟩

/-- The stack pointer moves by one, down with PUSH and up with POP, and stays in memory's range
(spec/10_state.md section 5). -/
theorem Effect.sp_cases {s t : State} {i : Instr} (he : Effect s i t) :
    t.sp = s.sp ∨ (∃ r, i = .push r ∧ t.sp = s.sp - 1 ∧ 0 ≤ t.sp ∧ t.sp ≤ 255) ∨
    (∃ r, i = .pop r ∧ t.sp = s.sp + 1 ∧ 0 ≤ s.sp ∧ t.sp ≤ 255) := by
  cases he with
  | halt | print | loadImmediate | multiply => exact .inl rfl
  | push h hs => exact .inr (.inl ⟨_, rfl, rfl, hs⟩)
  | pop h hs => exact .inr (.inr ⟨_, rfl, rfl, hs.1, Int.add_le_add_right hs.2 1⟩)

/-- The only effect that touches memory is PUSH's, which sets the cell at `sp - 1`
(spec/20_memory.md section 3). -/
theorem Effect.mem_cases {s t : State} {i : Instr} (he : Effect s i t) :
    t.mem = s.mem ∨ ∃ r, i = .push r ∧ 0 ≤ s.sp - 1 ∧ s.sp - 1 ≤ 255 ∧
      ∃ h : r.toNat < Config.numRegs,
        t.mem = s.mem.setByte (s.sp - 1).toNat (s.readReg ⟨r.toNat, h⟩) := by
  cases he with
  | halt | print | loadImmediate | multiply | pop => exact .inl rfl
  | push h hs => exact .inr ⟨_, rfl, hs.1, hs.2, h, rfl⟩

/-- The effects that touch a register are those of LOAD-IMMEDIATE, MULTIPLY and POP, which write the one
their first operand names (spec/10_state.md section 3). -/
theorem Effect.x_cases {s t : State} {i : Instr} (he : Effect s i t) :
    t.x = s.x ∨ ∃ (r : Byte) (h : r.toNat < Config.numRegs) (v : Byte),
      t.x = s.x.set r.toNat v h ∧
      ((∃ imm, i = .loadImmediate r imm) ∨ (∃ b, i = .multiply r b) ∨ i = .pop r) := by
  cases he with
  | halt | print | push => exact .inl rfl
  | loadImmediate h => exact .inr ⟨_, h, _, rfl, .inl ⟨_, rfl⟩⟩
  | multiply h hb => exact .inr ⟨_, h, _, rfl, .inr (.inl ⟨_, rfl⟩)⟩
  | pop h hs => exact .inr ⟨_, h, _, rfl, .inr (.inr rfl)⟩

/-- A register changes only if it is the one that was written. -/
theorem State.readReg_eq_of_x_set {s t : State} {n : Nat} {h : n < Config.numRegs} {v : Byte}
    (hx : t.x = s.x.set n v h) {j : RegIndex} (hj : j.val ≠ n) : t.readReg j = s.readReg j := by
  simp only [State.readReg, hx, Fin.getElem_fin]
  exact Vector.getElem_set_ne _ _ hj.symm

/-- A completed `exec` had the instruction's effect, and any other end of it is a fault the rule raised. -/
theorem exec_next_cases {i : Instr} {s t : State} (h : exec i s = .next t) :
    Effect s i t ∨ ∃ e, t = s.takeFault e ∧ Raises s i e := by
  rcases exec_cases i s with ⟨u, hu, he⟩ | ⟨e, hu, hr⟩ <;> rw [h] at hu <;> cases hu
  · exact .inl he
  · exact .inr ⟨e, rfl, hr⟩

end Sys2Proof.Machine

/-! PROOFS. Whole-machine rules: what alone moves `sp`, writes memory, writes a register and halts. -/

namespace Sys2Proof.Machine

theorem decode_eq_push_iff {op b1 b2 r : Byte} :
    decode op b1 b2 = .known (.push r) ↔ op = 69 ∧ r = b1 := by
  constructor
  · intro h
    simpa using decode_known_cases h
  · rintro ⟨rfl, rfl⟩
    exact decode_push r b2

theorem decode_eq_pop_iff {op b1 b2 r : Byte} :
    decode op b1 b2 = .known (.pop r) ↔ op = 70 ∧ r = b1 := by
  constructor
  · intro h
    simpa using decode_known_cases h
  · rintro ⟨rfl, rfl⟩
    exact decode_pop r b2

/-- Settles O34: a fault keeps `sp`, and the effects that move it are those of the opcodes 69 and 70. -/
theorem onlyPushAndPopMoveSp : Obligations.OnlyPushAndPopMoveSp := by
  intro s t hs hne
  obtain ⟨-, ho⟩ := step_cases hs
  cases ho with
  | overFetch | unrecognized | raised => exact absurd rfl hne
  | completed hp hd he =>
    rcases he.sp_cases with hsp | ⟨r, rfl, hsp, -⟩ | ⟨r, rfl, hsp, -⟩
    · exact absurd hsp hne
    · exact .inl ⟨(decode_eq_push_iff.mp hd).1, hsp⟩
    · exact .inr ⟨(decode_eq_pop_iff.mp hd).1, hsp⟩

/-- Settles O35: a fault keeps memory, and PUSH's effect sets the cell at `sp - 1` alone. -/
theorem onlyPushWritesMemory : Obligations.OnlyPushWritesMemory := by
  intro s t a hs hne
  obtain ⟨-, ho⟩ := step_cases hs
  cases ho with
  | overFetch | unrecognized | raised => exact absurd rfl hne
  | completed hp hd he =>
    rcases he.mem_cases with hmem | ⟨r, rfl, hlow, -, h, hmem⟩
    · exact absurd (congrArg (Memory.byteAt · a) hmem) hne
    · obtain ⟨hop, rfl⟩ := decode_eq_push_iff.mp hd
      have ha : a = (s.sp - 1).toNat := by
        by_contra ha
        exact hne (by rw [hmem, Memory.byteAt_setByte_of_ne _ _ ha])
      refine ⟨hop, by omega, h, ?_⟩
      rw [hmem, ha, Memory.byteAt_setByte_self]
      rfl

/-- The opcode and the first operand of a decoded instruction that writes a register. -/
theorem decode_register_writer {op b1 b2 r : Byte} {i : Instr} (hd : decode op b1 b2 = .known i)
    (hi : (∃ imm, i = .loadImmediate r imm) ∨ (∃ b, i = .multiply r b) ∨ i = .pop r) :
    (op = 130 ∨ op = 162 ∨ op = 70) ∧ r = b1 := by
  have hcases := decode_known_cases hd
  rcases hi with ⟨imm, rfl⟩ | ⟨b, rfl⟩ | rfl
  · obtain ⟨hop, hr, -⟩ : op = 130 ∧ r = b1 ∧ imm = b2 := by simpa using hcases
    exact ⟨.inl hop, hr⟩
  · obtain ⟨hop, hr, -⟩ : op = 162 ∧ r = b1 ∧ b = b2 := by simpa using hcases
    exact ⟨.inr (.inl hop), hr⟩
  · obtain ⟨hop, hr⟩ : op = 70 ∧ r = b1 := by simpa using hcases
    exact ⟨.inr (.inr hop), hr⟩

/-- Settles O36: a fault keeps the registers, and an effect writes at most the one that the first operand
of 130, 162 or 70 names. -/
theorem onlyThreeInstructionsWriteRegisters : Obligations.OnlyThreeInstructionsWriteRegisters := by
  intro s t j hs hne
  obtain ⟨-, ho⟩ := step_cases hs
  cases ho with
  | overFetch | unrecognized | raised => exact absurd rfl hne
  | completed hp hd he =>
    rcases he.x_cases with hx | ⟨r, h, v, hx, hi⟩
    · exact absurd (congrArg (·[j]) hx) hne
    · obtain ⟨hop, rfl⟩ := decode_register_writer hd hi
      exact ⟨hop, by_contra fun hj => hne (State.readReg_eq_of_x_set hx hj)⟩

/-- Settles O37: only HALT gives HALTED, and what completes started at 253 or below; there HALT's rule
gives that state. -/
theorem onlyHaltHalts : Obligations.OnlyHaltHalts := by
  intro s t hs
  have hr := running_of_step hs
  constructor
  · intro hh
    obtain ⟨-, -, hcompletes⟩ := overFetchFaults s hr
    obtain ⟨-, hhalt, -⟩ := pcAdvancesByWidth s t hs
    obtain ⟨hop, -⟩ := hhalt hh
    exact ⟨hcompletes t hs (by rw [hh]; nofun), hop⟩
  · rintro ⟨hp, hop⟩
    obtain ⟨-, hrule⟩ := haltRule
    obtain ⟨hhalts, -⟩ := hrule s hr hop
    rw [hhalts hp] at hs
    cases hs
    rfl

end Sys2Proof.Machine

/-! PROOFS. The invariant of every reachable state (spec/40_loop.md section 2, spec/44_stack.md section 4,
spec/60_exceptions.md section 1): reset and launch establish it, and every step keeps it. -/

namespace Sys2Proof.Machine

/-! ## The fault record -/

theorem Trap.cause_ne_none (e : Trap) : e.cause ≠ .none := by
  cases e <;> nofun

/-- An index that fails the register check is a legal value of its record. -/
theorem legalInfo_invalidRegister {r : Byte} (h : ¬ r.toNat < Config.numRegs) :
    legalInfo (Trap.invalidRegister r).cause (Trap.invalidRegister r).info := by
  have hbyte : r.toNat < 256 := r.isLt
  simp only [Config.numRegs] at h
  simp only [Trap.cause, Trap.info, legalInfo]
  omega

/-- A byte that is no opcode is a legal value of its record. -/
theorem legalInfo_unrecognizedOpcode {op : Byte} (h : op ∉ opcodes) :
    legalInfo (Trap.unrecognizedOpcode op).cause (Trap.unrecognizedOpcode op).info := by
  have hbyte : op.toNat < 256 := op.isLt
  have hcodes : ([1, 69, 70, 71, 130, 162] : List Int) = opcodes.map fun b => (b.toNat : Int) := rfl
  refine ⟨Int.natCast_nonneg _, by simp only [Trap.info]; omega, ?_⟩
  rw [hcodes, List.mem_map]
  rintro ⟨b, hb, heq⟩
  exact h (BitVec.eq_of_toNat_eq (Int.ofNat_inj.mp heq) ▸ hb)

/-- An instruction records an illegal index, or an address that does not exist (spec/60_exceptions.md
R171). -/
theorem Raises.info_legal {s : State} {i : Instr} {e : Trap} (hr : Raises s i e) :
    legalInfo e.cause e.info := by
  cases hr with
  | print h | loadImmediate h | multiplyA h | push h | pop h => exact legalInfo_invalidRegister h
  | multiplyB _ hb => exact legalInfo_invalidRegister hb
  | pushOutside _ hs | popOutside _ hs => exact hs
  | popTop => exact .inr (by decide)

/-- While `sp` is above 0 no rule raises a fault with a negative address. -/
theorem Raises.info_nonneg {s : State} {i : Instr} {e : Trap} (hr : Raises s i e) (hsp : 0 < s.sp) :
    0 ≤ e.info := by
  cases hr with
  | print | loadImmediate | multiplyA | multiplyB | push | pop => exact Int.natCast_nonneg _
  | pushOutside | popTop | popOutside => simp only [Trap.info]; omega

/-- A step takes a fault, with a legal record and no negative value while `sp` is above 0, or has the effect
of the instruction at `pc`. -/
theorem StepOutcome.fault_or_effect {s t : State} (ho : StepOutcome s t) :
    (∃ e : Trap, t = s.takeFault e ∧ legalInfo e.cause e.info ∧ (0 < s.sp → 0 ≤ e.info)) ∨
    ∃ i, s.pc ≤ 253 ∧ Effect s i t := by
  cases ho with
  | overFetch hp =>
    have haddr : (255 : Int) < (max 256 s.pc : Nat) := by omega
    exact .inl ⟨_, rfl, .inr haddr, fun _ => Int.natCast_nonneg _⟩
  | unrecognized _ hop =>
    exact .inl ⟨_, rfl, legalInfo_unrecognizedOpcode hop, fun _ => Int.natCast_nonneg _⟩
  | raised _ _ hr => exact .inl ⟨_, rfl, hr.info_legal, hr.info_nonneg⟩
  | completed hp _ he => exact .inr ⟨_, hp, he⟩

/-! ## The invariant -/

theorem State.Inv.takeFault {s : State} (hs : s.Inv) {e : Trap} (he : legalInfo e.cause e.info) :
    (s.takeFault e).Inv where
  memCanonical := hs.memCanonical
  pcRange := hs.pcRange
  spRange := hs.spRange
  noRecord := fun hne => absurd rfl hne
  record := fun _ => ⟨e.cause_ne_none, rfl, he⟩

theorem Effect.mem_wf {s t : State} {i : Instr} (he : Effect s i t) (hm : s.mem.wf) : t.mem.wf := by
  rcases he.mem_cases with hmem | ⟨r, -, hlow, hhigh, h, hmem⟩ <;> rw [hmem]
  · exact hm
  · exact Memory.wf_setByte hm (by simp only [Config.memSize]; omega) _

theorem width_le (i : Instr) : i.width ≤ 3 := by
  cases i <;> simp [Instr.width]

/-- What completes started at 253 or below and is at most 3 bytes wide (spec/40_loop.md R88). -/
theorem Effect.pc_le {s t : State} {i : Instr} (he : Effect s i t) (hp : s.pc ≤ 253) : t.pc ≤ 256 := by
  have hw := width_le i
  rcases he.pc_cases with ⟨-, -, hpc⟩ | ⟨-, -, hpc⟩ <;> omega

theorem State.Inv.effect {s t : State} {i : Instr} (hs : s.Inv) (hr : s.runState = .running)
    (hp : s.pc ≤ 253) (he : Effect s i t) : t.Inv where
  memCanonical := he.mem_wf hs.memCanonical
  pcRange := he.pc_le hp
  spRange := by
    have hrange := hs.spRange
    rcases he.sp_cases with hsp | ⟨-, -, -, hlow, hhigh⟩ | ⟨-, -, hsp, hlow, hhigh⟩ <;> omega
  noRecord := fun _ => by
    obtain ⟨hcause, hpc, hinfo⟩ := he.record_eq
    rw [hcause, hpc, hinfo]
    exact hs.noRecord (by rw [hr]; nofun)
  record := fun hf => absurd hf (he.runState_ne_faulted hr)

/-- Settles O42: a fault writes a legal record and keeps the rest; an effect keeps the memory canonical,
its two counters in range and the record empty. -/
theorem stepKeepsTheInvariant : Obligations.StepKeepsTheInvariant := by
  intro s t hs hstep
  obtain ⟨hr, ho⟩ := step_cases hstep
  rcases ho.fault_or_effect with ⟨e, rfl, he, -⟩ | ⟨i, hp, he⟩
  · exact hs.takeFault he
  · exact hs.effect hr hp he

/-- The reset state meets the invariant, whatever program is loaded into it. -/
theorem inv_reset_with_mem {m : Memory} (hm : m.wf) : ({ State.reset with mem := m } : State).Inv where
  memCanonical := hm
  pcRange := Nat.zero_le 256
  spRange := by rw [State.reset_sp]; decide
  noRecord := fun _ => ⟨rfl, rfl, rfl⟩
  record := nofun

/-- Settles O41: the empty memory is canonical, and the other elements are read off the reset table. -/
theorem resetSatisfiesTheInvariant : Obligations.ResetSatisfiesTheInvariant :=
  inv_reset_with_mem Memory.wf_nil

/-- Settles O45: the launch state meets the invariant and every step keeps it. -/
theorem launchedRunsKeepTheInvariant : Obligations.LaunchedRunsKeepTheInvariant := by
  intro p s hl n
  obtain ⟨-, -, rfl⟩ := launch_cases hl
  exact runFor_keeps stepKeepsTheInvariant n
    (inv_reset_with_mem (Memory.wf_placeBytes 0 _ Memory.wf_nil))

/-! ## The bound on the stack -/

/-- The bound leaves `sp` at 116 or above, for `pc` is at most 256. -/
theorem State.StackBound.sp_pos {s : State} (hs : s.StackBound) : 0 < s.sp := by
  have hpaid := hs.pushesPaid
  have hpc := hs.pcRange
  omega

/-- PUSH pays for the byte it takes off `sp` with the 2 it adds to `pc`; nothing else lowers either. -/
theorem Effect.pushes_paid {s t : State} {i : Instr} (he : Effect s i t) :
    2 * s.sp + s.pc ≤ 2 * t.sp + t.pc := by
  have hpc : s.pc ≤ t.pc := by
    rcases he.pc_cases with ⟨-, -, hpc⟩ | ⟨-, -, hpc⟩ <;> omega
  rcases he.sp_cases with hsp | ⟨r, rfl, hsp, -⟩ | ⟨r, rfl, hsp, -⟩
  · omega
  · rcases he.pc_cases with ⟨hne, -⟩ | ⟨-, -, hpc⟩
    · cases hne
    · rw [Instr.width] at hpc; omega
  · omega

/-- Settles O55: a fault keeps `sp` and `pc` and records no negative value while `sp` is above 0, which
the bound says it is; an effect keeps the bound and the fault record. -/
theorem stepKeepsTheStackAboveZero : Obligations.StepKeepsTheStackAboveZero := by
  intro s t hs hstep
  obtain ⟨-, ho⟩ := step_cases hstep
  rcases ho.fault_or_effect with ⟨e, rfl, -, he⟩ | ⟨i, hp, he⟩
  · exact ⟨hs.pushesPaid, hs.pcRange, he hs.sp_pos⟩
  · obtain ⟨-, -, hinfo⟩ := he.record_eq
    exact ⟨hs.pushesPaid.trans he.pushes_paid, he.pc_le hp, hs.noNegativeInfo.trans_eq hinfo.symm⟩

/-- The reset state meets the bound, whatever program is loaded into it: `sp` is SP_INIT. -/
theorem stackBound_reset_with_mem (m : Memory) : ({ State.reset with mem := m } : State).StackBound where
  pushesPaid := Int.le_add_of_nonneg_right (Int.natCast_nonneg _)
  pcRange := Nat.zero_le 256
  noNegativeInfo := Int.le_refl 0

/-- Settles O56: `sp` = 244 after reset, and nothing is recorded. -/
theorem resetMeetsTheStackBound : Obligations.ResetMeetsTheStackBound := stackBound_reset_with_mem []

/-- Settles O48: the launch state meets the bound and every step keeps it; the bound holds `sp` above 0. -/
theorem launchedRunsNeverOverflowTheStack : Obligations.LaunchedRunsNeverOverflowTheStack := by
  intro p s hl n
  obtain ⟨-, -, rfl⟩ := launch_cases hl
  have hbound := runFor_keeps stepKeepsTheStackAboveZero n (stackBound_reset_with_mem
    (placeBytes 0 (p.map (BitVec.ofNat 8)) State.reset.mem))
  exact ⟨hbound.sp_pos, hbound.noNegativeInfo⟩

end Sys2Proof.Machine

/-! PROOFS. Where a step exists, and how long a run can be (spec/40_loop.md sections 1 to 3). -/

namespace Sys2Proof.Machine

/-! ## Steps exist while RUNNING -/

/-- Settles O2: a step needs RUNNING, and every iteration ends in a next state. -/
theorem stepExistsExactlyWhileRunning : Obligations.StepExistsExactlyWhileRunning := by
  refine fun s => ⟨⟨fun ⟨_, ht⟩ => running_of_step ht, fun hr => ?_⟩, runFor_ended⟩
  obtain ⟨t, ht, -⟩ := step_next hr
  exact ⟨t, ht⟩

/-! ## The bound on a run -/

theorem running_of_runFor_running {n : Nat} {s : State} (h : (runFor n s).runState = .running) :
    s.runState = .running := by
  by_contra hr
  rw [runFor_ended hr] at h
  exact hr h

/-- A run that is RUNNING after `n + 1` steps took a first step, and `n` more from there. -/
theorem exists_step_of_runFor_running {n : Nat} {s : State}
    (h : (runFor (n + 1) s).runState = .running) :
    ∃ t, step s = .next t ∧ (runFor n t).runState = .running := by
  obtain ⟨t, ht, -⟩ := step_next (running_of_runFor_running h)
  rw [runFor_next ht] at h
  exact ⟨t, ht, h⟩

/-- Each step of a run that is still RUNNING advanced `pc` by at least 2 from an address of 253 or below,
because at 254 and above the step is the over-fetch. -/
theorem pc_le_of_runFor_running {n : Nat} {s : State} (h : (runFor (n + 1) s).runState = .running) :
    2 * n + s.pc ≤ 253 := by
  induction n generalizing s with
  | zero =>
    obtain ⟨t, ht, htr⟩ := exists_step_of_runFor_running h
    rw [runFor_zero] at htr
    obtain ⟨-, -, hcompletes⟩ := overFetchFaults s (running_of_step ht)
    have hp := hcompletes t ht (by rw [htr]; nofun)
    omega
  | succ n ih =>
    obtain ⟨t, ht, hrest⟩ := exists_step_of_runFor_running h
    have hbound := ih hrest
    obtain ⟨hpc, -⟩ := pcAdvancesByWidth s t ht
    rcases hpc (running_of_runFor_running hrest) with ⟨-, hpc⟩ | ⟨-, hpc⟩ <;> omega

theorem State.ended_of_not_running {s : State} (h : s.runState ≠ .running) : s.ended := by
  cases hr : s.runState with
  | running => exact absurd hr h
  | halted => exact .inl hr
  | faulted => exact .inr hr

/-- Settles O46: 128 steps that all left the run RUNNING would have started at 253 or below after an
advance of 254. -/
theorem everyRunEndsWithin128Steps : Obligations.EveryRunEndsWithin128Steps := by
  intro s
  have hover : (runFor 128 s).runState ≠ .running := fun h => by
    have hpc := pc_le_of_runFor_running (n := 127) h
    omega
  refine ⟨State.ended_of_not_running hover, rfl, fun n => ?_⟩
  rw [runFor_add, runFor_ended hover]
  rfl

/-- An end that is not FAULTED is HALTED, because the run is over. -/
theorem run_ne_faulted_iff_cleanEnd (s : State) : (run s).runState ≠ .faulted ↔ (run s).cleanEnd := by
  obtain ⟨hended, hrun, -⟩ := everyRunEndsWithin128Steps s
  rw [← hrun] at hended
  refine ⟨hended.resolve_right, fun hclean hfault => ?_⟩
  rw [State.cleanEnd, hfault] at hclean
  cases hclean

/-- Settles O47: every run is over, and there are two ends. -/
theorem safeRunsAreThoseThatHalt : Obligations.SafeRunsAreThoseThatHalt := fun _ =>
  exists_congr fun s => and_congr_right fun _ => run_ne_faulted_iff_cleanEnd s

/-! ## Input that is refused -/

/-- Settles O44: the loader's check fails where the length or a value is too large. -/
theorem launchRefusesOtherInput : Obligations.LaunchRefusesOtherInput := by
  intro p
  constructor
  · intro hnone
    by_contra hlegal
    simp only [not_or, Nat.not_lt, not_exists, not_and] at hlegal
    obtain ⟨hl, hv⟩ := hlegal
    rw [launch_of_bytes hl fun v hm => Nat.lt_succ_of_le (hv v hm)] at hnone
    cases hnone
  · intro hbad
    rw [Option.eq_none_iff_forall_ne_some]
    intro s hs
    obtain ⟨hl, hv, -⟩ := launch_cases hs
    rcases hbad with hlong | ⟨v, hm, hbig⟩
    · omega
    · exact absurd (hv v hm) (Nat.not_lt.mpr hbig)

end Sys2Proof.Machine

/-! PROOFS. The frame of every instruction: what it leaves unchanged (spec/10_state.md section 3,
spec/20_memory.md section 3, spec/44_stack.md sections 2 and 3). -/

namespace Sys2Proof.Machine

/-! ## Frames -/

/-- Settles O38: the effect of each of the four instructions, and the fault it raises where a register
operand is above 7. -/
theorem registerInstructionsFrame : Obligations.RegisterInstructionsFrame := by
  intro s t
  refine ⟨fun h => ?halt, fun r h => ?print, fun r imm h => ?loadImmediate, fun a b h => ?multiply⟩ <;>
    rcases exec_next_cases h with he | ⟨e, rfl, hraise⟩
  case halt.inl => cases he; exact ⟨rfl, rfl, rfl, rfl, rfl, rfl, fun _ => rfl⟩
  case halt.inr => cases hraise
  case print.inl =>
    cases he with
    | print hok => exact ⟨rfl, rfl, ⟨_, rfl⟩, fun _ => ⟨rfl, rfl, rfl, rfl⟩,
        fun hbad => absurd hok (Nat.not_lt.mpr hbad), fun _ => rfl⟩
  case print.inr =>
    cases hraise with
    | print hbad => exact ⟨rfl, rfl, ⟨[], List.append_nil _⟩, fun hok => absurd hok hbad, fun _ => rfl,
        fun _ => rfl⟩
  case loadImmediate.inl =>
    cases he with
    | loadImmediate hok => exact ⟨fun _ => State.readReg_eq_of_x_set (h := hok) rfl, rfl, rfl,
        fun _ => ⟨rfl, rfl, rfl, rfl⟩, fun _ => rfl⟩
  case loadImmediate.inr =>
    cases hraise with
    | loadImmediate hbad => exact ⟨fun _ _ => rfl, rfl, rfl, fun hok => absurd hok hbad, fun _ => rfl⟩
  case multiply.inl =>
    cases he with
    | multiply ha hb => exact ⟨fun _ => State.readReg_eq_of_x_set (h := ha) rfl, rfl, rfl,
        fun _ _ => ⟨rfl, rfl, rfl, rfl⟩, fun hbad => absurd hb (Nat.not_lt.mpr hbad), fun _ => rfl⟩
  case multiply.inr =>
    cases hraise with
    | multiplyA hbad => exact ⟨fun _ _ => rfl, rfl, rfl, fun hok => absurd hok hbad, fun _ => rfl,
        fun _ => rfl⟩
    | multiplyB _ hbad => exact ⟨fun _ _ => rfl, rfl, rfl, fun _ hok => absurd hok hbad, fun _ => rfl,
        fun _ => rfl⟩

/-- Settles O39: the effects of PUSH and POP, and the faults they raise where the register operand is
above 7 or the address does not exist. -/
theorem stackInstructionsFrame : Obligations.StackInstructionsFrame := by
  intro s t r
  refine ⟨fun h => ?push, fun h => ?pop⟩ <;> rcases exec_next_cases h with he | ⟨e, rfl, hraise⟩
  case push.inl =>
    cases he with
    | push hok hs =>
      refine ⟨rfl, rfl, .inr rfl, fun _ _ _ => ⟨rfl, rfl, rfl, rfl⟩, fun hbad => ?_, ?_⟩
      · simp only [Config.numRegs] at hok
        omega
      · rintro addr rfl b hb
        exact Memory.byteAt_setByte_of_ne _ _ (by rw [pushAddr] at hb; omega)
  case push.inr =>
    refine ⟨rfl, rfl, .inl rfl, fun hok hlow hhigh => ?_, fun _ => ⟨rfl, fun _ => rfl⟩,
      fun _ _ _ _ => rfl⟩
    cases hraise with
    | push hbad => exact absurd hok hbad
    | pushOutside _ hs => omega
  case pop.inl =>
    cases he with
    | pop hok hs =>
      refine ⟨fun _ => State.readReg_eq_of_x_set (h := hok) rfl, rfl, .inr rfl,
        fun _ _ _ => ⟨rfl, rfl, rfl, rfl⟩, fun hbad => ?_, fun _ => rfl⟩
      simp only [Config.numRegs] at hok
      omega
  case pop.inr =>
    refine ⟨fun _ _ => rfl, rfl, .inl rfl, fun hok hlow hhigh => ?_, fun _ => ⟨rfl, rfl⟩, fun _ => rfl⟩
    cases hraise with
    | pop hbad => exact absurd hok hbad
    | popTop _ hs => omega
    | popOutside _ hs => omega

end Sys2Proof.Machine

/-! PROOFS. A step depends on memory only through the bytes it reads (spec/20_memory.md section 3). -/

namespace Sys2Proof.Machine

/-! ## The same step with another memory -/

/-- No fault depends on memory. -/
theorem Raises.with_mem {s : State} {i : Instr} {e : Trap} (hr : Raises s i e) (m : Memory) :
    Raises { s with mem := m } i e := by
  cases hr with
  | print h => exact .print h
  | loadImmediate h => exact .loadImmediate h
  | multiplyA h => exact .multiplyA h
  | multiplyB ha hb => exact .multiplyB ha hb
  | push h => exact .push h
  | pushOutside h hs => exact .pushOutside (s := { s with mem := m }) h hs
  | pop h => exact .pop h
  | popTop h hs => exact .popTop h hs
  | popOutside h hs => exact .popOutside (s := { s with mem := m }) h hs

/-- Writing the same byte to two memories makes them differ nowhere they did not differ before. -/
theorem Memory.ne_of_byteAt_setByte_ne {m m' : Memory} {a b : Nat} {v : Byte}
    (h : byteAt (setByte m a v) b ≠ byteAt (setByte m' a v) b) : byteAt m b ≠ byteAt m' b := by
  intro heq
  rw [byteAt_setByte, byteAt_setByte, heq] at h
  exact h rfl

/-- The memories `m` and `m'` differ at no address where `n` and `n'` agree. -/
def differOnlyWhere (m m' n n' : Memory) : Prop :=
  ∀ a : Nat, m.byteAt a ≠ m'.byteAt a → n.byteAt a ≠ n'.byteAt a

/-- An effect reads no cell but POP's: with another memory that agrees on it, everything else comes out
the same. -/
theorem Effect.with_mem {s t : State} {i : Instr} (he : Effect s i t) (m : Memory)
    (hpop : ∀ r, i = .pop r → m.byteAt s.sp.toNat = s.mem.byteAt s.sp.toNat) :
    ∃ m', Effect { s with mem := m } i { t with mem := m' } ∧ differOnlyWhere m' t.mem m s.mem := by
  cases he with
  | halt => exact ⟨m, .halt, fun _ h => h⟩
  | print h => exact ⟨m, .print h, fun _ h => h⟩
  | loadImmediate h => exact ⟨m, .loadImmediate h, fun _ h => h⟩
  | multiply ha hb => exact ⟨m, .multiply ha hb, fun _ h => h⟩
  | push h hs =>
    exact ⟨_, .push (s := { s with mem := m }) h hs, fun _ => Memory.ne_of_byteAt_setByte_ne⟩
  | pop h hs =>
    refine ⟨m, ?_, fun _ h => h⟩
    rw [← hpop _ rfl]
    exact .pop (s := { s with mem := m }) h hs

/-- Settles O40: the window decodes alike, a fault is one with both memories, and an effect comes out the
same up to memory. -/
theorem stepReadsOnlyItsWindow : Obligations.StepReadsOnlyItsWindow := by
  intro s m hr hwindow hcell
  have hcode : ∀ k, k < 3 → ({ s with mem := m } : State).codeByte k = s.codeByte k := hwindow
  have h0 := hcode 0 (by omega)
  have hdecode : ∀ {i}, decode (s.codeByte 0) (s.codeByte 1) (s.codeByte 2) = .known i →
      decode (({ s with mem := m } : State).codeByte 0) (({ s with mem := m } : State).codeByte 1)
        (({ s with mem := m } : State).codeByte 2) = .known i := by
    intro i hd
    rw [h0, hcode 1 (by omega), hcode 2 (by omega), hd]
  obtain ⟨t, ht, ho⟩ := step_next hr
  cases ho with
  | overFetch hp =>
    exact ⟨_, _, ht, step_overFetch (s := { s with mem := m }) hr hp, rfl, fun _ h => h⟩
  | unrecognized hp hop =>
    refine ⟨_, _, ht, step_unrecognized (s := { s with mem := m }) hr hp (h0 ▸ hop), ?_, fun _ h => h⟩
    rw [h0]
    rfl
  | raised hp hd he =>
    exact ⟨_, _, ht, step_of_raises (s := { s with mem := m }) hr hp (hdecode hd) (he.with_mem m), rfl,
      fun _ h => h⟩
  | completed hp hd he =>
    obtain ⟨m', he', hdiff⟩ := he.with_mem m fun r hi =>
      hcell (decode_eq_pop_iff.mp (hi ▸ hd)).1
    exact ⟨_, _, ht, step_of_effect (s := { s with mem := m }) hr hp (hdecode hd) he', rfl, hdiff⟩

end Sys2Proof.Machine

/-! PROOFS. Running stack instructions one after another (spec/44_stack.md section 4). -/

namespace Sys2Proof.Machine

/-! ## PUSH and POP of a named register -/

theorem regOperand_lt (i : RegIndex) : (regOperand i).toNat < Config.numRegs :=
  (regOperand_toNat i).trans_lt i.isLt

/-- The state that a PUSH of register `i` leaves where it completes (spec/44_stack.md R151). -/
def State.afterPush (s : State) (i : RegIndex) : State :=
  { s with mem := s.mem.setByte (s.sp - 1).toNat (s.readReg i), sp := s.sp - 1, pc := s.pc + 2 }

/-- The state that a POP into register `i` leaves where it completes (spec/44_stack.md R152). -/
def State.afterPop (s : State) (i : RegIndex) : State :=
  { s with x := s.x.set i (s.mem.byteAt s.sp.toNat), sp := s.sp + 1, pc := s.pc + 2 }

@[simp] theorem State.afterPush_mem (s : State) (i : RegIndex) :
    (s.afterPush i).mem = s.mem.setByte (s.sp - 1).toNat (s.readReg i) := rfl
@[simp] theorem State.afterPush_sp (s : State) (i : RegIndex) : (s.afterPush i).sp = s.sp - 1 := rfl
@[simp] theorem State.afterPush_pc (s : State) (i : RegIndex) : (s.afterPush i).pc = s.pc + 2 := rfl
@[simp] theorem State.afterPush_readReg (s : State) (i j : RegIndex) :
    (s.afterPush i).readReg j = s.readReg j := rfl
@[simp] theorem State.afterPop_mem (s : State) (i : RegIndex) : (s.afterPop i).mem = s.mem := rfl
@[simp] theorem State.afterPop_x (s : State) (i : RegIndex) :
    (s.afterPop i).x = s.x.set i (s.mem.byteAt s.sp.toNat) := rfl
@[simp] theorem State.afterPop_sp (s : State) (i : RegIndex) : (s.afterPop i).sp = s.sp + 1 := rfl
@[simp] theorem State.afterPop_pc (s : State) (i : RegIndex) : (s.afterPop i).pc = s.pc + 2 := rfl

theorem exec_push_regOperand (s : State) (i : RegIndex) (hs : 0 ≤ s.sp - 1 ∧ s.sp - 1 ≤ 255) :
    exec (.push (regOperand i)) s = .next (s.afterPush i) := by
  have hi : (⟨(regOperand i).toNat, regOperand_lt i⟩ : RegIndex) = i := Fin.ext (regOperand_toNat i)
  have he := (Effect.push (regOperand_lt i) hs).exec_eq
  rwa [hi] at he

theorem exec_pop_regOperand (s : State) (i : RegIndex) (hs : 0 ≤ s.sp ∧ s.sp ≤ 254) :
    exec (.pop (regOperand i)) s = .next (s.afterPop i) := by
  have hi : (⟨(regOperand i).toNat, regOperand_lt i⟩ : RegIndex) = i := Fin.ext (regOperand_toNat i)
  have he := (Effect.pop (regOperand_lt i) hs).exec_eq
  rwa [hi] at he

/-- Settles O49: the POP reads the cell the PUSH set, and their moves of `sp` cancel. -/
theorem pushThenPopRoundTrips : Obligations.PushThenPopRoundTrips := by
  intro s a b hlow hhigh
  have hpush := exec_push_regOperand s a (by omega)
  have hpop := exec_pop_regOperand (s.afterPush a) b (by rw [State.afterPush_sp]; omega)
  have hcell := Memory.byteAt_setByte_self s.mem (s.sp - 1).toNat (s.readReg a)
  refine ⟨_, ?_, hcell⟩
  rw [execAll_cons hpush, execAll_cons hpop, execAll, State.afterPop, State.afterPush_mem,
    State.afterPush_sp, hcell, Int.sub_add_cancel]
  rfl

/-! ## Lists of pushes and pops -/

/-- Pushes fill the cells below `sp` downwards and leave the cells from `sp` up as they were. -/
theorem execAll_pushes (rs : List RegIndex) (s : State) (hlow : (rs.length : Int) ≤ s.sp)
    (hhigh : s.sp ≤ 255) :
    ∃ m : Memory, execAll (rs.map fun r => .push (regOperand r)) s = .next { s with
        mem := m, sp := s.sp - rs.length, pc := s.pc + 2 * rs.length } ∧
      (∀ k (hk : k < rs.length), m.byteAt (s.sp - 1 - k).toNat = s.readReg rs[k]) ∧
      ∀ a : Nat, s.sp ≤ a → m.byteAt a = s.mem.byteAt a := by
  induction rs generalizing s with
  | nil => exact ⟨s.mem, by simp [execAll], nofun, fun _ _ => rfl⟩
  | cons r rs ih =>
    simp only [List.length_cons] at hlow ⊢
    have hpush := exec_push_regOperand s r (by omega)
    obtain ⟨m, hrest, hcells, hframe⟩ := ih (s.afterPush r) (by rw [State.afterPush_sp]; omega)
      (by rw [State.afterPush_sp]; omega)
    refine ⟨m, ?_, fun k hk => ?_, fun a ha => ?_⟩
    · have hsp : (s.afterPush r).sp - rs.length = s.sp - (rs.length + 1 : Nat) := by
        rw [State.afterPush_sp]; omega
      have hpc : (s.afterPush r).pc + 2 * rs.length = s.pc + 2 * (rs.length + 1) := by
        rw [State.afterPush_pc]; omega
      rw [List.map_cons, execAll_cons hpush, hrest, hsp, hpc]
      rfl
    · cases k with
      | zero =>
        have haddr : (s.sp - 1 - (0 : Nat)).toNat = (s.sp - 1).toNat := by omega
        rw [haddr, hframe _ (by rw [State.afterPush_sp]; omega), State.afterPush_mem,
          Memory.byteAt_setByte_self, List.getElem_cons_zero]
      | succ k =>
        have haddr : s.sp - 1 - (k + 1 : Nat) = (s.afterPush r).sp - 1 - k := by
          rw [State.afterPush_sp]; omega
        rw [haddr, hcells k (by omega), State.afterPush_readReg, List.getElem_cons_succ]
    · rw [hframe a (by rw [State.afterPush_sp]; omega), State.afterPush_mem,
        Memory.byteAt_setByte_of_ne _ _ (by omega)]

/-- Pops read the cells from `sp` upwards, and each writes its register in turn. -/
theorem execAll_pops (ds : List RegIndex) (vs : List Byte) (s : State) (hlen : vs.length = ds.length)
    (hlow : 0 ≤ s.sp) (hhigh : s.sp + ds.length ≤ 255)
    (hcells : ∀ k (hk : k < vs.length), s.mem.byteAt (s.sp + k).toNat = vs[k]) :
    execAll (ds.map fun d => .pop (regOperand d)) s = .next { s with
      x := (ds.zip vs).foldl (fun x d => x.set d.1 d.2) s.x
      sp := s.sp + ds.length
      pc := s.pc + 2 * ds.length } := by
  induction ds generalizing vs s with
  | nil => simp [execAll]
  | cons d ds ih =>
    obtain ⟨v, vs, rfl⟩ := List.exists_cons_of_length_eq_add_one hlen
    simp only [List.length_cons, Nat.add_right_cancel_iff] at hlen hhigh hcells ⊢
    have hpop := exec_pop_regOperand s d (by omega)
    have hcell : s.mem.byteAt s.sp.toNat = v := by simpa using hcells 0 (by omega)
    have hsp : (s.afterPop d).sp + ds.length = s.sp + (ds.length + 1 : Nat) := by
      rw [State.afterPop_sp]; omega
    have hpc : (s.afterPop d).pc + 2 * ds.length = s.pc + 2 * (ds.length + 1) := by
      rw [State.afterPop_pc]; omega
    rw [List.map_cons, execAll_cons hpop, ih vs (s.afterPop d) hlen (by rw [State.afterPop_sp]; omega)
      (by omega) ?_, hsp, hpc, State.afterPop_x, hcell]
    · rfl
    · intro k hk
      have haddr : (s.afterPop d).sp + k = s.sp + (k + 1 : Nat) := by rw [State.afterPop_sp]; omega
      rw [haddr, State.afterPop_mem, hcells (k + 1) (by omega), List.getElem_cons_succ]

/-- Settles O50: after the pushes the cells from `sp` up hold the pushed values in reverse order, and the
pops read them in that order. -/
theorem popsReturnPushesInReverse : Obligations.PopsReturnPushesInReverse := by
  intro s rs ds hlen hlow hhigh
  obtain ⟨m, hpush, hcells, -⟩ := execAll_pushes rs s hlow hhigh
  have hvs : (rs.map s.readReg).reverse.length = ds.length := by simpa using hlen
  have hpop := execAll_pops ds (rs.map s.readReg).reverse
    { s with mem := m, sp := s.sp - rs.length, pc := s.pc + 2 * rs.length } hvs
    (by simp only; omega) (by simp only; omega) ?_
  · refine ⟨_, _, hpush, hpop, ?_, ?_, hcells, rfl⟩
    · simp only; omega
    · simp only; omega
  · intro k hk
    simp only [List.length_reverse, List.length_map] at hk
    have haddr : s.sp - rs.length + k = s.sp - 1 - (rs.length - 1 - k : Nat) := by omega
    rw [List.getElem_reverse, List.getElem_map]
    simp only [List.length_map, haddr]
    exact hcells _ _

end Sys2Proof.Machine

/-! PROOFS. The window the next step fetches (spec/20_memory.md section 4, spec/40_loop.md section 1), and
the status port (spec/60_exceptions.md section 5). -/

namespace Sys2Proof.Machine

/-! ## The next fetch -/

/-- Settles O52: a step whose fetch succeeds is `exec` of what it decoded. -/
theorem stepRunsTheDecodedInstruction : Obligations.StepRunsTheDecodedInstruction :=
  fun _ _ hr hp hd => step_known hr hp hd

/-- A step that runs PUSH and stays RUNNING had PUSH's effect. -/
theorem effect_of_push_step {s t : State} (hs : step s = .next t) (ht : t.runState = .running)
    (hop : s.codeByte 0 = 69) : Effect s (.push (s.codeByte 1)) t := by
  obtain ⟨-, ho⟩ := step_cases hs
  cases ho with
  | overFetch | unrecognized | raised => cases ht
  | completed _ hd he =>
    rw [decode_eq_push hop] at hd
    cases hd
    exact he

/-- Settles O51: memory after the PUSH is the old one with the cell at `sp - 1` set, and the next fetch
reads that memory. -/
theorem pushIsSeenByTheNextFetch : Obligations.PushIsSeenByTheNextFetch := by
  intro s t h hs ht hop hp
  refine ⟨fetch_inside hp, fun k _ => ?_⟩
  cases effect_of_push_step hs ht hop with
  | push hreg hsp =>
    refine ⟨fun haddr => ?_, fun haddr => Memory.byteAt_setByte_of_ne _ _ (by omega)⟩
    change ((s.pc + 2 + k : Nat) : Int) = s.sp - 1 at haddr
    have hcell : s.pc + 2 + k = (s.sp - 1).toNat := by omega
    change Memory.byteAt (Memory.setByte _ _ _) (s.pc + 2 + k) = _
    rw [hcell, Memory.byteAt_setByte_self]
    rfl

/-- The bytes of a table word that is placed at `pc` are the window of the next fetch. -/
theorem codeByte_withFetchWord {s : State} (hp : s.pc ≤ 253) (nbits w : Nat) {k : Nat} (hk : k < 3) :
    (s.withFetchWord nbits w).codeByte k = tableByte nbits w k := by
  have hfit : s.pc + [tableByte nbits w 0, tableByte nbits w 1, tableByte nbits w 2].length ≤
      Config.memSize := by simp only [List.length_cons, List.length_nil, Config.memSize]; omega
  change Memory.byteAt (placeBytes s.pc _ s.mem) (s.pc + k) = _
  rw [Memory.byteAt_placeBytes _ _ _ _ hfit, if_pos (Nat.le_add_right _ _), Nat.add_sub_cancel_left]
  interval_cases k <;> rfl

theorem eq_known_of_instr?_eq_some {d : Decoded} {i : Instr} (h : d.instr? = some i) : d = .known i := by
  cases d with
  | known j => cases h; rfl
  | unknown op => cases h

/-- Settles O53: the window of the next fetch holds the word's bytes, which decode to the instruction. -/
theorem fetchWordRunsNext : Obligations.FetchWordRunsNext := by
  intro s nbits w i hr hp hd
  refine step_known hr hp ?_
  rw [codeByte_withFetchWord hp nbits w (by omega), codeByte_withFetchWord hp nbits w (by omega),
    codeByte_withFetchWord hp nbits w (by omega)]
  exact eq_known_of_instr?_eq_some hd

/-! ## The status port -/

theorem State.fatalSignal_iff (s : State) : s.fatalSignal = true ↔ s.status.runState = 2 := by
  rw [State.fatalSignal, decide_eq_true_eq, State.status]
  cases s.runState <;> simp [RunState.code]

/-- Settles O54: the codes are those of the tables, the port shows each field by its code, and only
FAULTED has the code 2. -/
theorem statusPortShowsTheState : Obligations.StatusPortShowsTheState :=
  ⟨⟨rfl, rfl, rfl⟩, ⟨rfl, rfl, rfl, rfl, rfl⟩, fun s => ⟨rfl, rfl, rfl, rfl, s.fatalSignal_iff⟩⟩

end Sys2Proof.Machine
